-- ==== Sys2Proof/Word.lean ====
section
/-!
DEFINITION. The word types of the CHIP-8 core and their plainest arithmetic (spec/00_scope.md R6, R7).
Every value is unsigned; nothing is sign-extended.
-/
namespace Sys2Proof

/-- A register, an immediate or one memory cell: 8 bits (10_state.md R15, 20_memory.md R41). -/
abbrev Byte := BitVec 8

/-- The index register, the program counter, a stack slot or an instruction word: 16 bits
(10_state.md R19, R20, R23; 30_encoding.md R62). -/
abbrev Word := BitVec 16

/-- The 4-bit index that names a general register (10_state.md R15). -/
abbrev RegIx := BitVec 4

/-- One display row: bit c is the cell of column c (10_state.md R28). -/
abbrev Row := BitVec 64

/-- `zext_16` of a byte (00_scope.md R7). -/
abbrev Byte.toWord (b : Byte) : Word := b.setWidth 16

end Sys2Proof
end

