-- ==== Sys2Proof/Syntax.lean ====
section
/-!
DEFINITION. The instructions of the core, one constructor for each row of spec/opcode_table.json
(spec/30_encoding.md R66). Operand names are the spec's fields (R62): x and y select registers, kk is an immediate
byte, nnn an address, n a row count. Bits the decoder ignores are no operand (R67, R68, R70; log 8).
nnn is the 16-bit value the machine uses and n the count it uses (R63); WellFormed says which of them an
instruction word can hold (log 7).
-/
namespace Sys2Proof

inductive Instr where
  /-- 00E0 CLS -/
  | cls
  /-- 00EE RET -/
  | ret
  /-- 1nnn JP nnn -/
  | jp (nnn : Word)
  /-- 2nnn CALL nnn -/
  | call (nnn : Word)
  /-- 3xkk SE Vx, kk -/
  | seImm (x : RegIx) (kk : Byte)
  /-- 4xkk SNE Vx, kk -/
  | sneImm (x : RegIx) (kk : Byte)
  /-- 5xyN SE Vx, Vy -/
  | seReg (x y : RegIx)
  /-- 6xkk LD Vx, kk -/
  | ldImm (x : RegIx) (kk : Byte)
  /-- 7xkk ADD Vx, kk -/
  | addImm (x : RegIx) (kk : Byte)
  /-- 8xy0 LD Vx, Vy -/
  | ldReg (x y : RegIx)
  /-- 8xy1 OR Vx, Vy -/
  | orReg (x y : RegIx)
  /-- 8xy2 AND Vx, Vy -/
  | andReg (x y : RegIx)
  /-- 8xy3 XOR Vx, Vy -/
  | xorReg (x y : RegIx)
  /-- 8xy4 ADD Vx, Vy -/
  | addReg (x y : RegIx)
  /-- 8xy5 SUB Vx, Vy -/
  | subReg (x y : RegIx)
  /-- 8xy6 SHR Vx -/
  | shr (x : RegIx)
  /-- 8xy7 SUBN Vx, Vy -/
  | subnReg (x y : RegIx)
  /-- 8xyE SHL Vx -/
  | shl (x : RegIx)
  /-- 9xyN SNE Vx, Vy -/
  | sneReg (x y : RegIx)
  /-- Annn LD I, nnn -/
  | ldI (nnn : Word)
  /-- Bnnn JP V0, nnn -/
  | jpV0 (nnn : Word)
  /-- Cxkk RND Vx, kk -/
  | rnd (x : RegIx) (kk : Byte)
  /-- Dxyn DRW Vx, Vy, n -/
  | drw (x y : RegIx) (n : Nat)
  /-- Ex9E SKP Vx -/
  | skp (x : RegIx)
  /-- ExA1 SKNP Vx -/
  | sknp (x : RegIx)
  /-- Fx07 LD Vx, DT -/
  | ldVxDt (x : RegIx)
  /-- Fx0A LD Vx, K -/
  | ldVxK (x : RegIx)
  /-- Fx15 LD DT, Vx -/
  | ldDtVx (x : RegIx)
  /-- Fx18 LD ST, Vx -/
  | ldStVx (x : RegIx)
  /-- Fx1E ADD I, Vx -/
  | addI (x : RegIx)
  /-- Fx29 LD F, Vx -/
  | ldF (x : RegIx)
  /-- Fx33 LD B, Vx -/
  | ldB (x : RegIx)
  /-- Fx55 LD [I], Vx -/
  | storeRegs (x : RegIx)
  /-- Fx65 LD Vx, [I] -/
  | loadRegs (x : RegIx)
  deriving DecidableEq, Repr

end Sys2Proof
end

