-- ==== Sys2Proof/Config.lean ====
section
/-!
DEFINITION. The implementation parameters of the core (spec/00_scope.md R5) at the spec's values, and the one free
value: the random byte of a step for which the environment supplied none.
The Boolean parameter SUBN_ADVANCES_PC is a field of State, so that a claim about every state covers both of its
values (log 4).
-/
namespace Sys2Proof.Config

/-- `MEM_SIZE`: 4096 bytes (R5, R41). -/
def memSize : Nat := 4096

/-- `ADDR_MAX`: the last address (R5). -/
def addrMax : Nat := 0xFFF

/-- `FETCH_WIDTH`: 2 bytes (R5). -/
def fetchWidth : Word := 2

/-- `ENTRY`: where execution begins and the loader writes (R5, R46, R136; the spec's value, log 5). -/
def entry : Nat := 0x200

/-- `GLYPH_BASE` (R5; log 5). -/
def glyphBase : Nat := 0x000

/-- `GLYPH_HEIGHT`: bytes per glyph (R5). -/
def glyphHeight : Nat := 5

/-- `GLYPH_COUNT`: the digits 0-F (R5). -/
def glyphCount : Nat := 16

/-- The first address above the glyph region, 0x050 (20_memory.md R44). -/
def glyphEnd : Nat := glyphBase + glyphCount * glyphHeight

/-- `DISPLAY_W`, the cells of a row (R5, R28). -/
def displayW : Nat := 64

/-- `DISPLAY_H`, the rows (R5, R28). -/
def displayH : Nat := 32

/-- The number of display cells, 2048 (R28). -/
def displayCells : Nat := displayW * displayH

/-- `ROM_MAX`: the largest program a load accepts (R5, R52). -/
def romMax : Nat := memSize - entry

/-- The glyphs of the digits 0 to 7 (20_memory.md R45; log 5). -/
def glyphsLow : List Byte :=
  [0xF0, 0x90, 0x90, 0x90, 0xF0] ++ [0x20, 0x60, 0x20, 0x20, 0x70] ++
  [0xF0, 0x10, 0xF0, 0x80, 0xF0] ++ [0xF0, 0x10, 0xF0, 0x10, 0xF0] ++
  [0x90, 0x90, 0xF0, 0x10, 0x10] ++ [0xF0, 0x80, 0xF0, 0x10, 0xF0] ++
  [0xF0, 0x80, 0xF0, 0x90, 0xF0] ++ [0xF0, 0x10, 0x20, 0x40, 0x40]

/-- The glyphs of the digits 8 to F (20_memory.md R45; log 5). -/
def glyphsHigh : List Byte :=
  [0xF0, 0x90, 0xF0, 0x90, 0xF0] ++ [0xF0, 0x90, 0xF0, 0x10, 0xF0] ++
  [0xF0, 0x90, 0xF0, 0x90, 0x90] ++ [0xE0, 0x90, 0xE0, 0x90, 0xE0] ++
  [0xF0, 0x80, 0x80, 0x80, 0xF0] ++ [0xE0, 0x90, 0x90, 0x90, 0xE0] ++
  [0xF0, 0x80, 0xF0, 0x80, 0xF0] ++ [0xF0, 0x80, 0xF0, 0x80, 0x80]

/-- `GLYPH_TABLE`: 80 bytes, glyph d at 5 * d, row 0 first, bit 7 the leftmost pixel (20_memory.md R45). -/
def glyphTable : List Byte := glyphsLow ++ glyphsHigh

/-- The random byte of the n-th step for which the environment supplied none: any byte at all
(43_index_random.md R100 takes rnd as a free input; log 3). It has no body, so nothing can evaluate it. -/
opaque freeRnd : Nat → Byte

end Sys2Proof.Config
end

