-- ==== Sys2Proof/WellFormed.lean ====
section
/-!
DEFINITION. Which instructions an instruction word can hold (spec/30_encoding.md R62, R63): an address nnn has 12 bits,
a row count n is 0..15. Register selectors and immediate bytes fit by their types.
-/
namespace Sys2Proof

/-- nnn fits its 12-bit field: 0..0xFFF (R63). -/
def addrFits (nnn : Word) : Bool := decide (nnn.toNat ≤ Config.addrMax)

/-- n fits its 4-bit field: 0..15 (R63). -/
def countFits (n : Nat) : Bool := decide (n ≤ 15)

/-- The instruction has an encoding. -/
def Instr.wf : Instr → Bool
  | .jp nnn => addrFits nnn
  | .call nnn => addrFits nnn
  | .ldI nnn => addrFits nnn
  | .jpV0 nnn => addrFits nnn
  | .drw _ _ n => countFits n
  | .cls => true
  | .ret => true
  | .seImm _ _ => true
  | .sneImm _ _ => true
  | .seReg _ _ => true
  | .ldImm _ _ => true
  | .addImm _ _ => true
  | .ldReg _ _ => true
  | .orReg _ _ => true
  | .andReg _ _ => true
  | .xorReg _ _ => true
  | .addReg _ _ => true
  | .subReg _ _ => true
  | .shr _ => true
  | .subnReg _ _ => true
  | .shl _ => true
  | .sneReg _ _ => true
  | .rnd _ _ => true
  | .skp _ => true
  | .sknp _ => true
  | .ldVxDt _ => true
  | .ldVxK _ => true
  | .ldDtVx _ => true
  | .ldStVx _ => true
  | .addI _ => true
  | .ldF _ => true
  | .ldB _ => true
  | .storeRegs _ => true
  | .loadRegs _ => true

end Sys2Proof
end

