-- ==== Sys2Proof/Decode.lean ====
section
/-!
DEFINITION. The decoder of instruction words and, after it, the encoder (spec/30_encoding.md). Decoding follows R65 and
R66: a dispatch key by the top nibble, then the handler table. It is total (R75): a word whose key is not in the
table is rejected by name.
-/
namespace Sys2Proof

/-! ## The fields of a word (R62) -/

/-- `op = w[15:12]`. -/
def opOf (w : Word) : BitVec 4 := w.extractLsb' 12 4

/-- `x = w[11:8]`. -/
def xOf (w : Word) : RegIx := w.extractLsb' 8 4

/-- `y = w[7:4]`. -/
def yOf (w : Word) : RegIx := w.extractLsb' 4 4

/-- `n = w[3:0]`, used as a count (R63). -/
def nOf (w : Word) : Nat := (w.extractLsb' 0 4).toNat

/-- `kk = w[7:0]`. -/
def kkOf (w : Word) : Byte := w.extractLsb' 0 8

/-- `nnn = w[11:0]`, used as zext_16(nnn) (R63). -/
def nnnOf (w : Word) : Word := (w.extractLsb' 0 12).setWidth 16

/-! ## Byte order (20_memory.md R49) -/

/-- The word whose byte at the lower address is `hi`. -/
def wordOfBytes (hi lo : Byte) : Word := hi ++ lo

/-- The two bytes of a word, the one at the lower address first. -/
def bytesOfWord (w : Word) : List Byte := [w.extractLsb' 8 8, w.extractLsb' 0 8]

/-! ## Dispatch -/

/-- The generic (masked) opcode of R65. -/
def dispatchKey (w : Word) : Word :=
  if opOf w = 0x0 then w &&& 0x00FF
  else if opOf w = 0x8 then w &&& 0xF00F
  else if opOf w = 0xE ∨ opOf w = 0xF then w &&& 0xF0FF
  else w &&& 0xF000

/-- The rows of R66 for the families 0 to 7. -/
def handlersLow : List (Word × (Word → Instr)) :=
  [ (0x00E0, fun _ => .cls),
    (0x00EE, fun _ => .ret),
    (0x1000, fun w => .jp (nnnOf w)),
    (0x2000, fun w => .call (nnnOf w)),
    (0x3000, fun w => .seImm (xOf w) (kkOf w)),
    (0x4000, fun w => .sneImm (xOf w) (kkOf w)),
    (0x5000, fun w => .seReg (xOf w) (yOf w)),
    (0x6000, fun w => .ldImm (xOf w) (kkOf w)),
    (0x7000, fun w => .addImm (xOf w) (kkOf w)) ]

/-- The rows of R66 for the family 8 (R68: y is not used by SHR and SHL). -/
def handlersAlu : List (Word × (Word → Instr)) :=
  [ (0x8000, fun w => .ldReg (xOf w) (yOf w)),
    (0x8001, fun w => .orReg (xOf w) (yOf w)),
    (0x8002, fun w => .andReg (xOf w) (yOf w)),
    (0x8003, fun w => .xorReg (xOf w) (yOf w)),
    (0x8004, fun w => .addReg (xOf w) (yOf w)),
    (0x8005, fun w => .subReg (xOf w) (yOf w)),
    (0x8006, fun w => .shr (xOf w)),
    (0x8007, fun w => .subnReg (xOf w) (yOf w)),
    (0x800E, fun w => .shl (xOf w)) ]

/-- The rows of R66 for the families 9 to D. -/
def handlersHigh : List (Word × (Word → Instr)) :=
  [ (0x9000, fun w => .sneReg (xOf w) (yOf w)),
    (0xA000, fun w => .ldI (nnnOf w)),
    (0xB000, fun w => .jpV0 (nnnOf w)),
    (0xC000, fun w => .rnd (xOf w) (kkOf w)),
    (0xD000, fun w => .drw (xOf w) (yOf w) (nOf w)) ]

/-- The rows of R66 for the families E and F (R69; 0xF015 is the delay-timer write, R74). -/
def handlersFunc : List (Word × (Word → Instr)) :=
  [ (0xE09E, fun w => .skp (xOf w)),
    (0xE0A1, fun w => .sknp (xOf w)),
    (0xF007, fun w => .ldVxDt (xOf w)),
    (0xF00A, fun w => .ldVxK (xOf w)),
    (0xF015, fun w => .ldDtVx (xOf w)),
    (0xF018, fun w => .ldStVx (xOf w)),
    (0xF01E, fun w => .addI (xOf w)),
    (0xF029, fun w => .ldF (xOf w)),
    (0xF033, fun w => .ldB (xOf w)),
    (0xF055, fun w => .storeRegs (xOf w)),
    (0xF065, fun w => .loadRegs (xOf w)) ]

/-- The handler table of R66: its 34 keys, each with the instruction it selects. -/
def handlerTable : List (Word × (Word → Instr)) :=
  handlersLow ++ handlersAlu ++ handlersHigh ++ handlersFunc

/-- Why bytes hold no instruction. -/
inductive DecodeReject where
  /-- The key of the word is not in the handler table (R71). -/
  | unknownOpcode (opcode : Word)
  /-- Fewer than the two bytes every instruction has (R73). -/
  | truncated
  deriving DecidableEq, Repr

/-- The instruction of a word, or the word's rejection (R65, R66, R71). -/
def decodeWord (w : Word) : Except DecodeReject Instr :=
  match handlerTable.lookup (dispatchKey w) with
  | some build => .ok (build w)
  | none => .error (.unknownOpcode w)

/-- The instruction at the head of some bytes and the bytes after it. -/
def decode : List Byte → Except DecodeReject (Instr × List Byte)
  | hi :: lo :: rest =>
    match decodeWord (wordOfBytes hi lo) with
    | .ok i => .ok (i, rest)
    | .error e => .error e
  | [_] => .error .truncated
  | [] => .error .truncated

/-! ## Encoding (the formats of R64; ignored bits are written as 0, R76) -/

/-- Format NNN. -/
def encNnn (op : BitVec 4) (nnn : Word) : Word := op ++ nnn.setWidth 12

/-- Format XKK, and format XF with kk the function. -/
def encXkk (op : BitVec 4) (x : RegIx) (kk : Byte) : Word := op ++ x ++ kk

/-- Formats XY-, XYF and XYN with n the low nibble. -/
def encXyn (op : BitVec 4) (x y : RegIx) (n : BitVec 4) : Word := op ++ x ++ y ++ n

/-- The word of an instruction (R64, R66, R76). -/
def encode : Instr → Word
  | .cls => encXkk 0x0 0 0xE0
  | .ret => encXkk 0x0 0 0xEE
  | .jp nnn => encNnn 0x1 nnn
  | .call nnn => encNnn 0x2 nnn
  | .seImm x kk => encXkk 0x3 x kk
  | .sneImm x kk => encXkk 0x4 x kk
  | .seReg x y => encXyn 0x5 x y 0
  | .ldImm x kk => encXkk 0x6 x kk
  | .addImm x kk => encXkk 0x7 x kk
  | .ldReg x y => encXyn 0x8 x y 0x0
  | .orReg x y => encXyn 0x8 x y 0x1
  | .andReg x y => encXyn 0x8 x y 0x2
  | .xorReg x y => encXyn 0x8 x y 0x3
  | .addReg x y => encXyn 0x8 x y 0x4
  | .subReg x y => encXyn 0x8 x y 0x5
  | .shr x => encXyn 0x8 x 0 0x6
  | .subnReg x y => encXyn 0x8 x y 0x7
  | .shl x => encXyn 0x8 x 0 0xE
  | .sneReg x y => encXyn 0x9 x y 0
  | .ldI nnn => encNnn 0xA nnn
  | .jpV0 nnn => encNnn 0xB nnn
  | .rnd x kk => encXkk 0xC x kk
  | .drw x y n => encXyn 0xD x y (BitVec.ofNat 4 n)
  | .skp x => encXkk 0xE x 0x9E
  | .sknp x => encXkk 0xE x 0xA1
  | .ldVxDt x => encXkk 0xF x 0x07
  | .ldVxK x => encXkk 0xF x 0x0A
  | .ldDtVx x => encXkk 0xF x 0x15
  | .ldStVx x => encXkk 0xF x 0x18
  | .addI x => encXkk 0xF x 0x1E
  | .ldF x => encXkk 0xF x 0x29
  | .ldB x => encXkk 0xF x 0x33
  | .storeRegs x => encXkk 0xF x 0x55
  | .loadRegs x => encXkk 0xF x 0x65

/-- The bytes of an instruction as memory holds them (20_memory.md R49). -/
def encodeBytes (i : Instr) : List Byte := bytesOfWord (encode i)

/-- The instruction the decoder reads from the nbits-bit instruction w of the opcode table (bit 0 is the least
significant bit of the word; the bits above nbits are 0). -/
def decodeTableWord (nbits w : Nat) : Option Instr :=
  match decode (bytesOfWord (BitVec.ofNat 16 (w % 2 ^ nbits))) with
  | .ok (i, _) => some i
  | .error _ => none

end Sys2Proof
end

