-- ==== Sys2Proof/Machine/State.lean ====
section
/-!
DEFINITION. The state of the core (spec/10_state.md), the host's transactions (spec/60_exceptions.md R133), the faults a
step reports (R119, R120) and the state after reset (R34).
-/
namespace Sys2Proof.Machine

/-- Read or write, as a MemoryOutOfRange fault reports it (60_exceptions.md R120). -/
inductive Access where
  | read
  | write
  deriving DecidableEq, Repr

/-- A transaction of the host other than `step` (60_exceptions.md R133). -/
inductive HostOp where
  /-- `reset` (70_reset_and_hazards.md R134). -/
  | reset
  /-- `load(bytes)`; `none` is a ROM the host could not read (20_memory.md R52, R53; log 13). -/
  | load (rom : Option (List Byte))
  /-- `tick()` (45_keypad_timer.md R111). -/
  | tick
  /-- `set_key(index, pressed)` (R113). -/
  | setKey (index : Nat) (pressed : Bool)
  /-- `is_key_pressed(index)` (R114). -/
  | isKeyPressed (index : Nat)
  /-- `render()` (44_display.md R104). -/
  | render
  deriving DecidableEq, Repr

/-- Why a transaction of the host is turned away; it then changes nothing (60_exceptions.md R119). -/
inductive HostError where
  /-- Code 8: the ROM would overrun memory (20_memory.md R52). -/
  | romTooLarge
  /-- Code 9: the ROM could not be read (20_memory.md R53). -/
  | romUnreadable
  /-- Code 10: a key index above 15 (45_keypad_timer.md R113, R114). -/
  | badKeyIndex
  deriving DecidableEq, Repr

/-- What a transaction answers (60_exceptions.md R133). -/
inductive HostResult where
  /-- `Ok`, or a transaction that answers nothing. -/
  | ok
  /-- Turned away. -/
  | refused (e : HostError)
  /-- The answer of `is_key_pressed`. -/
  | key (pressed : Bool)
  /-- The answer of `render`: 32 rows of 64 cells. -/
  | cells (rows : List (List Bool))
  deriving DecidableEq, Repr

/-- What the environment supplies to one step: the host's transactions that land before it, first to last, and
its random byte (30_encoding.md R61; 70_reset_and_hazards.md R143; log 1, log 3). -/
structure StepInput where
  ops : List HostOp
  rnd : Byte
  deriving DecidableEq, Repr

/-- The whole machine. -/
structure State where
  /-- V0-VF (10_state.md R15); VF is also the flag (R16, R26). -/
  v : Vector Byte 16
  /-- The index register I (R19). -/
  i : Word
  /-- The program counter: the address of the instruction being executed (R20). -/
  pc : Word
  /-- The stack pointer (R24). -/
  sp : BitVec 4
  /-- The call stack S[0..15] (R23). -/
  stack : Vector Word 16
  /-- The delay timer DT (R27). -/
  dt : Byte
  /-- The sound timer ST (R27). -/
  st : Byte
  /-- The display, row r holding FB[64r .. 64r+63], column c at bit c (R28; log 12). -/
  fb : Vector Row 32
  /-- The key states K[0..15] (R29). -/
  keys : Vector Bool 16
  /-- Memory, as its differences from the reset contents in canonical form (20_memory.md R41; log 15). -/
  mem : List Host.Cell
  /-- The status output awaiting_key (10_state.md R30). -/
  awaitingKey : Bool
  /-- MODEL'S OWN: the parameter SUBN_ADVANCES_PC (00_scope.md R5), which nothing writes (log 4). -/
  subnAdvancesPc : Bool
  /-- MODEL'S OWN: the random byte of the step being made (30_encoding.md R61; log 3). -/
  rnd : Byte
  /-- MODEL'S OWN: what the environment supplies to the coming steps, the next one first (log 1). -/
  inputs : List StepInput
  /-- MODEL'S OWN: how many free random bytes have been drawn (log 3). -/
  freeIx : Nat
  deriving DecidableEq, Repr

/-- The state after reset (10_state.md R34): everything zero but PC = ENTRY and the glyphs in memory. The four fields
that are the model's own have the values of log 16. -/
def State.reset : State where
  v := Vector.replicate 16 0
  i := 0
  pc := BitVec.ofNat 16 Config.entry
  sp := 0
  stack := Vector.replicate 16 0
  dt := 0
  st := 0
  fb := Vector.replicate 32 0
  keys := Vector.replicate 16 false
  mem := []
  awaitingKey := false
  subnAdvancesPc := true
  rnd := 0
  inputs := []
  freeIx := 0

/-- The faults a step reports, with their information (60_exceptions.md R119, R120). Each is the outcome the SPEC gives
the step: nothing has changed (R121) and the run ends (R127). Every one is safe: the machine stops where the spec
says the step fails (log 9). -/
inductive Fault where
  /-- Code 1, raised by the decoder for a word with no handler (30_encoding.md R71). Safe. -/
  | unknownOpcode (opcode pc : Word)
  /-- Code 2, raised by CALL with SP = 15 (41_control_flow.md R78). Safe. -/
  | stackOverflow (pc : Word) (sp : BitVec 4)
  /-- Code 3, raised by RET with SP = 0 (41_control_flow.md R79). Safe. -/
  | stackUnderflow (pc : Word) (sp : BitVec 4)
  /-- Code 4, raised by DRW, LD B, LD [I] and LD Vx,[I] for an address above 0xFFF (20_memory.md R47, R48). Safe. -/
  | memoryOutOfRange (pc : Word) (addr : Nat) (access : Access)
  /-- Code 5, raised by the fetch (30_encoding.md R61). Safe. -/
  | invalidPc (pc : Word)
  /-- Code 6, raised by SKP and SKNP for Vx above 15 (45_keypad_timer.md R105, R106). Safe. -/
  | keyIndexOutOfRange (pc : Word) (index : Byte)
  /-- Code 7, raised by LD B and LD [I] for an address below 0x050 (20_memory.md R48). Safe. -/
  | glyphRegionWrite (pc : Word) (addr : Nat)
  deriving DecidableEq, Repr

/-- The reasons an instruction has no meaning in this model. -/
inductive Refusal where
  /-- Raised by exec's arm of an instruction that has no meaning yet (none is left). Safe. -/
  | notModelled (mnemonic : String)
  deriving DecidableEq, Repr

/-- The outcome of an instruction or a step (00_scope.md R10). -/
abbrev Result := Host.Outcome State Fault Refusal

end Sys2Proof.Machine
end

