-- ==== Sys2Proof/Machine/Ops.lean ====
section
/-!
DEFINITION. The named operations the meanings are built from: memory and its checks (spec/20_memory.md), registers, the
program counter's classes, the call stack (spec/10_state.md), raising a fault (spec/60_exceptions.md), the fetch
(spec/30_encoding.md R61).
-/
namespace Sys2Proof.Machine

/-! ## Memory contents -/

/-- What an address nothing has written reads as: the reset contents, which are the glyph table at GLYPH_BASE and
zero elsewhere (10_state.md R34, 20_memory.md R43). -/
def blankByte (a : Nat) : Byte :=
  if Config.glyphBase ≤ a ∧ a < Config.glyphEnd then Config.glyphTable.getD (a - Config.glyphBase) 0 else 0

/-- The byte at an address. -/
def memGet : List Host.Cell → Nat → Byte
  | [], a => blankByte a
  | c :: m, a => if a = c.1 then c.2 else memGet m a

/-- Put a cell before the first cell of a higher address. -/
def memInsert (c : Host.Cell) : List Host.Cell → List Host.Cell
  | [] => [c]
  | d :: m => if c.1 < d.1 then c :: d :: m else d :: memInsert c m

/-- Store a byte: the address's cell is replaced, or removed where the byte is what the unlisted address reads as. -/
def memSet (m : List Host.Cell) (a : Nat) (b : Byte) : List Host.Cell :=
  let rest := m.filter (fun c => c.1 ≠ a)
  if b = blankByte a then rest else memInsert (a, b) rest

/-- The canonical form: addresses strictly rising and inside memory, no cell equal to what its address reads as
unlisted. -/
abbrev memWf (m : List Host.Cell) : Prop :=
  m.Pairwise (fun c d => c.1 < d.1) ∧ ∀ c ∈ m, c.1 ≤ Config.addrMax ∧ c.2 ≠ blankByte c.1

/-- M[a] (20_memory.md R41), with no check. -/
def State.readMem (s : State) (a : Nat) : Byte := memGet s.mem a

/-- M[a] <- b with no check. -/
def State.writeMem (s : State) (a : Nat) (b : Byte) : State := { s with mem := memSet s.mem a b }

/-- The bytes M[base] .. M[base + count - 1]. -/
def State.readBytes (s : State) (base count : Nat) : List Byte :=
  (List.range count).map (fun j => s.readMem (base + j))

/-- M[base], M[base + 1], ... <- the bytes, in address order. -/
def State.writeBytes (s : State) (base : Nat) : List Byte → State
  | [] => s
  | b :: bs => (s.writeMem base b).writeBytes (base + 1) bs

/-! ## Checks and faults -/

/-- `raise`: the step ends with the fault and changes nothing (00_scope.md R9, 60_exceptions.md R121). This core saves
nothing and transfers control nowhere (R125), so a fault is only an outcome. -/
def raise (f : Fault) : Result := .fault f

/-- The numeric code of a fault (60_exceptions.md R119). -/
def Fault.code : Fault → Nat
  | .unknownOpcode _ _ => 1
  | .stackOverflow _ _ => 2
  | .stackUnderflow _ _ => 3
  | .memoryOutOfRange _ _ _ => 4
  | .invalidPc _ => 5
  | .keyIndexOutOfRange _ _ => 6
  | .glyphRegionWrite _ _ => 7

/-- Code 0, no fault: `Ok` (60_exceptions.md R119). -/
def okCode : Nat := 0

/-- The error output of a step (60_exceptions.md R119): `okCode` if it completes, else its fault's code. A refusal is no
outcome of the spec and has none. -/
def resultCode : Result → Option Nat
  | .next _ => some okCode
  | .fault f => some f.code
  | .refused _ => none

/-- The check of `MemRead(a, 1)` (20_memory.md R47). -/
def readFault (pc : Word) (a : Nat) : Option Fault :=
  if a > Config.addrMax then some (.memoryOutOfRange pc a .read) else none

/-- The checks of `MemWrite(a, 1, v)` (20_memory.md R48). -/
def writeFault (pc : Word) (a : Nat) : Option Fault :=
  if a > Config.addrMax then some (.memoryOutOfRange pc a .write)
  else if a < Config.glyphEnd then some (.glyphRegionWrite pc a)
  else none

/-- The checks of several bytes in address order: the fault of the lowest failing address (20_memory.md R48). -/
def firstFault (check : Nat → Option Fault) (base count : Nat) : Option Fault :=
  (List.range count).findSome? (fun j => check (base + j))

/-- `CheckRead(base, count)` (46_memory_transfer.md). -/
def State.checkRead (s : State) (base count : Nat) : Option Fault := firstFault (readFault s.pc) base count

/-- `CheckWrite(base, count)` (46_memory_transfer.md). -/
def State.checkWrite (s : State) (base count : Nat) : Option Fault := firstFault (writeFault s.pc) base count

/-- Run an instruction's body if its own check raises nothing (00_scope.md R9: all checks precede the first write). -/
def guarded (check : Option Fault) (body : State) : Result :=
  match check with
  | some f => raise f
  | none => .next body

/-! ## Registers -/

/-- V[x] (10_state.md R15). -/
def State.getV (s : State) (x : RegIx) : Byte := s.v[x.toNat]

/-- V[x] <- b (10_state.md R15). -/
def State.setV (s : State) (x : RegIx) (b : Byte) : State := { s with v := s.v.set x.toNat b }

/-- The index of VF, the flag register (10_state.md R16). -/
def vf : RegIx := 0xF

/-- I <- w (10_state.md R19: 16 bits, so a sum is taken mod 2^16). -/
def State.setI (s : State) (w : Word) : State := { s with i := w }

/-- DT <- b (10_state.md R27). -/
def State.setDt (s : State) (b : Byte) : State := { s with dt := b }

/-- ST <- b (10_state.md R27). -/
def State.setSt (s : State) (b : Byte) : State := { s with st := b }

/-! ## Next PC (10_state.md R21)

A completed instruction writes PC last (R40). The step that completes clears awaiting_key unless it is a wait for a
key (R30), so the write of PC and that of awaiting_key are one operation (log 10). -/

/-- Complete the instruction with this next PC. -/
def State.finish (s : State) (next : Word) : State := { s with pc := next, awaitingKey := false }

/-- Normal advance: PC + 2. The 16-bit sum wraps only where no run gets (10_state.md R22; log 11). -/
def State.advance (s : State) : State := s.finish (s.pc + Config.fetchWidth)

/-- A conditional skip: PC + 4 if taken, else PC + 2. -/
def State.skipIf (s : State) (taken : Bool) : State :=
  if taken then s.finish (s.pc + 2 * Config.fetchWidth) else s.advance

/-- Hold: the same word is fetched again, and awaiting_key says so (R30). -/
def State.awaitKey (s : State) : State := { s with awaitingKey := true }

/-! ## Call stack (10_state.md R23-R25, R36) -/

/-- S[j]. -/
def State.getSlot (s : State) (j : BitVec 4) : Word := s.stack[j.toNat]

/-- The check of `push`: StackOverflow when SP = 15. -/
def State.pushFault (s : State) : Option Fault :=
  if s.sp = 15 then some (.stackOverflow s.pc s.sp) else none

/-- `push(a)` after its check: SP <- SP + 1, then S[SP] <- a. -/
def State.push (s : State) (a : Word) : State :=
  let sp := s.sp + 1
  { s with sp := sp, stack := s.stack.set sp.toNat a }

/-- The check of `pop`: StackUnderflow when SP = 0. -/
def State.popFault (s : State) : Option Fault :=
  if s.sp = 0 then some (.stackUnderflow s.pc s.sp) else none

/-- `pop()` after its check: SP <- SP - 1; the popped slot is S[SP] before it and keeps its value. -/
def State.pop (s : State) : State := { s with sp := s.sp - 1 }

/-! ## Fetch (30_encoding.md R61) -/

/-- The check of PC before a fetch: even, not below ENTRY, not above MEM_SIZE - 2 (10_state.md R22). -/
def pcOk (pc : Word) : Bool :=
  decide (pc.toNat % 2 = 0 ∧ Config.entry ≤ pc.toNat ∧ pc.toNat ≤ Config.memSize - 2)

/-- The word at PC, big-endian (20_memory.md R49). -/
def State.fetchWord (s : State) : Word := wordOfBytes (s.readMem s.pc.toNat) (s.readMem (s.pc.toNat + 1))

end Sys2Proof.Machine
end

