-- ==== Sys2Proof/Machine/Flags.lean ====
section
/-!
DEFINITION. The values written to VF as a flag (spec/10_state.md R26). Operands are the latched values (R17).
-/
namespace Sys2Proof.Machine

/-- A flag as the byte VF receives. -/
def flagByte (c : Bool) : Byte := if c then 1 else 0

/-- ADD: 1 if the unsigned sum does not fit 8 bits (42_arith_logic.md R91). -/
def carryFlag (a b : Byte) : Byte := flagByte (decide (a.toNat + b.toNat > 255))

/-- The difference `a - b`: 0 if it borrows, that is b > a, else 1 (42_arith_logic.md R92, R94). -/
def notBorrowFlag (a b : Byte) : Byte := flagByte (!decide (b.toNat > a.toNat))

/-- SHR: the bit shifted out, bit 0 (42_arith_logic.md R93). -/
def lowBitFlag (a : Byte) : Byte := a &&& 1

/-- SHL: the bit shifted out, bit 7 (42_arith_logic.md R95). -/
def highBitFlag (a : Byte) : Byte := a >>> 7

/-- Write the flag first and the result second, so with x = 15 the result stays (10_state.md R17). -/
def State.setFlagThenV (s : State) (flag : Byte) (x : RegIx) (result : Byte) : State :=
  (s.setV vf flag).setV x result

end Sys2Proof.Machine
end

