-- ==== Sys2Proof/Machine/ArithLogic.lean ====
section
/-!
DEFINITION. Register arithmetic and logic (spec/42_arith_logic.md). Arithmetic is unsigned on 8 bits and wraps
(R96); nothing here faults.
-/
namespace Sys2Proof.Machine

/-- LD Vx, kk (R85). -/
def execLdImm (x : RegIx) (kk : Byte) (s : State) : Result := .next (s.setV x kk).advance

/-- ADD Vx, kk (R86): no flag. -/
def execAddImm (x : RegIx) (kk : Byte) (s : State) : Result := .next (s.setV x (s.getV x + kk)).advance

/-- LD Vx, Vy (R87). -/
def execLdReg (x y : RegIx) (s : State) : Result := .next (s.setV x (s.getV y)).advance

/-- OR Vx, Vy (R88): no flag. -/
def execOrReg (x y : RegIx) (s : State) : Result := .next (s.setV x (s.getV x ||| s.getV y)).advance

/-- AND Vx, Vy (R89): no flag. -/
def execAndReg (x y : RegIx) (s : State) : Result := .next (s.setV x (s.getV x &&& s.getV y)).advance

/-- XOR Vx, Vy (R90): no flag. -/
def execXorReg (x y : RegIx) (s : State) : Result := .next (s.setV x (s.getV x ^^^ s.getV y)).advance

/-- ADD Vx, Vy (R91): VF = carry out. -/
def execAddReg (x y : RegIx) (s : State) : Result :=
  .next (s.setFlagThenV (carryFlag (s.getV x) (s.getV y)) x (s.getV x + s.getV y)).advance

/-- SUB Vx, Vy (R92): VF = not borrow of Vx - Vy. -/
def execSubReg (x y : RegIx) (s : State) : Result :=
  .next (s.setFlagThenV (notBorrowFlag (s.getV x) (s.getV y)) x (s.getV x - s.getV y)).advance

/-- SHR Vx (R93): VF = the bit shifted out. -/
def execShr (x : RegIx) (s : State) : Result :=
  .next (s.setFlagThenV (lowBitFlag (s.getV x)) x (s.getV x >>> 1)).advance

/-- The next PC of SUBN: normal, or held when SUBN_ADVANCES_PC is false (R94, 10_state.md R21; log 4). -/
def State.advanceSubn (s : State) : State := if s.subnAdvancesPc then s.advance else s.finish s.pc

/-- SUBN Vx, Vy (R94): VF = not borrow of Vy - Vx. -/
def execSubnReg (x y : RegIx) (s : State) : Result :=
  .next (s.setFlagThenV (notBorrowFlag (s.getV y) (s.getV x)) x (s.getV y - s.getV x)).advanceSubn

/-- SHL Vx (R95): VF = the bit shifted out. -/
def execShl (x : RegIx) (s : State) : Result :=
  .next (s.setFlagThenV (highBitFlag (s.getV x)) x (s.getV x <<< 1)).advance

end Sys2Proof.Machine
end

