-- ==== Sys2Proof/Machine/ControlFlow.lean ====
section
/-!
DEFINITION. Jumps, call and return, and the conditional skips (spec/41_control_flow.md). A target is not checked when a
jump runs; a bad one raises InvalidPc at the next fetch.
-/
namespace Sys2Proof.Machine

/-- JP nnn (R77). -/
def execJp (nnn : Word) (s : State) : Result := .next (s.finish nnn)

/-- CALL nnn (R78): the pushed value is the CALL's own address. -/
def execCall (nnn : Word) (s : State) : Result := guarded s.pushFault ((s.push s.pc).finish nnn)

/-- RET (R79): resumes at the popped address plus the fetch width. -/
def execRet (s : State) : Result := guarded s.popFault (s.pop.finish (s.getSlot s.sp + Config.fetchWidth))

/-- SE Vx, kk (R80). -/
def execSeImm (x : RegIx) (kk : Byte) (s : State) : Result := .next (s.skipIf (s.getV x == kk))

/-- SNE Vx, kk (R81). -/
def execSneImm (x : RegIx) (kk : Byte) (s : State) : Result := .next (s.skipIf (s.getV x != kk))

/-- SE Vx, Vy (R82). -/
def execSeReg (x y : RegIx) (s : State) : Result := .next (s.skipIf (s.getV x == s.getV y))

/-- SNE Vx, Vy (R83). -/
def execSneReg (x y : RegIx) (s : State) : Result := .next (s.skipIf (s.getV x != s.getV y))

/-- JP V0, nnn (R84): reads V0 whatever x is. -/
def execJpV0 (nnn : Word) (s : State) : Result := .next (s.finish (nnn + (s.getV 0).toWord))

end Sys2Proof.Machine
end

