-- ==== Sys2Proof/Machine/Operands.lean ====
section
/-!
DEFINITION. The operand forms that are more than one register or one immediate: a sprite in memory, a block of
registers, the decimal digits of a register, a key named by a register. Every operand is read once, before the
instruction's first write (spec/10_state.md R17).
-/
namespace Sys2Proof.Machine

/-- The address in I as an exact integer (20_memory.md R47: `I + r` is not wrapped). -/
def State.addrI (s : State) : Nat := s.i.toNat

/-- The sprite of DRW: the n bytes M[I] .. M[I + n - 1] (44_display.md R102). -/
def State.sprite (s : State) (n : Nat) : List Byte := s.readBytes s.addrI n

/-- The number of registers V0..Vx (46_memory_transfer.md R116). -/
def blockSize (x : RegIx) : Nat := x.toNat + 1

/-- The values of V0..Vx, V0 first (R116). -/
def State.regBlock (s : State) (x : RegIx) : List Byte := s.v.toList.take (blockSize x)

/-- V[0..x] <- M[base .. base + x] (R117). -/
def State.loadBlock (s : State) (x : RegIx) (base : Nat) : State :=
  { s with v := Vector.ofFn (fun j : Fin 16 => if j.val ≤ x.toNat then s.readMem (base + j.val) else s.v[j]) }

/-- The hundreds, tens and ones digits of a byte (R115). -/
def digits (a : Byte) : List Byte := [a / 100, a / 10 % 10, a % 10]

/-- K[a] for the key a register names; none above 15 (45_keypad_timer.md R105). -/
def State.keyAt (s : State) (a : Byte) : Option Bool := s.keys[a.toNat]?

/-- The lowest pressed key (45_keypad_timer.md R107, 10_state.md R39). -/
def State.firstPressed (s : State) : Option RegIx :=
  ((List.finRange 16).find? (fun k => s.keys[k])).map (fun k => BitVec.ofNat 4 k.val)

/-- The address of a digit's glyph: GLYPH_BASE + a * GLYPH_HEIGHT, a not reduced (43_index_random.md R99). -/
def glyphAddr (a : Byte) : Word := BitVec.ofNat 16 (Config.glyphBase + a.toNat * Config.glyphHeight)

end Sys2Proof.Machine
end

