-- ==== Sys2Proof/Machine/Display.lean ====
section
/-!
DEFINITION. framebuffer_write_controller: clear, the blit of one sprite, and their instructions
(spec/44_display.md R101-R103).
-/
namespace Sys2Proof.Machine

/-- FB[j] (10_state.md R28): the cell of row j / 64 and column j mod 64; false past the last cell. -/
def fbCell (fb : Vector Row 32) (j : Nat) : Bool :=
  if h : j / Config.displayW < 32 then fb[j / Config.displayW].getLsbD (j % Config.displayW) else false

/-- FB[j] <- FB[j] ^ 1, and nothing past the last cell. -/
def fbFlip (fb : Vector Row 32) (j : Nat) : Vector Row 32 :=
  if h : j / Config.displayW < 32 then
    fb.set (j / Config.displayW) (fb[j / Config.displayW] ^^^ BitVec.twoPow 64 (j % Config.displayW))
  else fb

/-- A draw in progress: the display and whether a cell went from 1 to 0. -/
structure Blit where
  fb : Vector Row 32
  collided : Bool
  deriving DecidableEq, Repr

/-- One lit sprite bit at linear index j: dropped at 2048 and above (R102). -/
def plot (d : Blit) (j : Nat) : Blit :=
  if j < Config.displayCells then { fb := fbFlip d.fb j, collided := d.collided || fbCell d.fb j } else d

/-- The sprite bit of column c: bit 7 is the leftmost (R102). -/
def spriteBit (b : Byte) (c : Nat) : Bool := b.getLsbD (7 - c)

/-- One sprite row whose column 0 is at linear index base. -/
def blitRow (b : Byte) (base : Nat) (d : Blit) : Blit :=
  (List.range 8).foldl (fun d c => if spriteBit b c then plot d (base + c) else d) d

/-- The sprite's rows from display row y on, at column x: L = (y + r) * 64 + (x + c), not wrapped (R102). -/
def blitRows (x : Nat) : Nat → List Byte → Blit → Blit
  | _, [], d => d
  | y, b :: rows, d => blitRows x (y + 1) rows (blitRow b (y * Config.displayW + x) d)

/-- `blit` (10_state.md R38): the XOR of one sprite with the collision result. -/
def State.blit (s : State) (x y : Byte) (rows : List Byte) : Blit :=
  blitRows x.toNat y.toNat rows { fb := s.fb, collided := false }

/-- CLS (R101). -/
def execCls (s : State) : Result := .next { s with fb := Vector.replicate 32 0 }.advance

/-- DRW Vx, Vy, n (R102): the coordinates are latched before VF is written (10_state.md R17). -/
def execDrw (x y : RegIx) (n : Nat) (s : State) : Result :=
  let d := s.blit (s.getV x) (s.getV y) (s.sprite n)
  guarded (s.checkRead s.addrI n) ({ s with fb := d.fb }.setV vf (flagByte d.collided)).advance

end Sys2Proof.Machine
end

