-- ==== Sys2Proof/Machine/IndexRandom.lean ====
section
/-!
DEFINITION. The index register and the random instruction (spec/43_index_random.md). Nothing here writes VF as a flag,
touches memory or faults.
-/
namespace Sys2Proof.Machine

/-- LD I, nnn (R97). -/
def execLdI (nnn : Word) (s : State) : Result := .next (s.setI nnn).advance

/-- ADD I, Vx (R98): mod 2^16, VF unchanged, no fault above 0xFFF. -/
def execAddI (x : RegIx) (s : State) : Result := .next (s.setI (s.i + (s.getV x).toWord)).advance

/-- LD F, Vx (R99): the digit is not reduced to its low nibble. -/
def execLdF (x : RegIx) (s : State) : Result := .next (s.setI (glyphAddr (s.getV x))).advance

/-- RND Vx, kk (R100): the step's random byte under the mask. -/
def execRnd (x : RegIx) (kk : Byte) (s : State) : Result := .next (s.setV x (s.rnd &&& kk)).advance

end Sys2Proof.Machine
end

