-- ==== Sys2Proof/Machine/KeypadTimer.lean ====
section
/-!
DEFINITION. The keypad instructions and the timer transfers (spec/45_keypad_timer.md R105-R110).
-/
namespace Sys2Proof.Machine

/-- A skip on the state of the key V[x] names; KeyIndexOutOfRange above 15 (R105, R106). -/
def skipOnKey (x : RegIx) (want : Bool) (s : State) : Result :=
  match s.keyAt (s.getV x) with
  | none => raise (.keyIndexOutOfRange s.pc (s.getV x))
  | some pressed => .next (s.skipIf (pressed == want))

/-- SKP Vx (R105). -/
def execSkp (x : RegIx) (s : State) : Result := skipOnKey x true s

/-- SKNP Vx (R106). -/
def execSknp (x : RegIx) (s : State) : Result := skipOnKey x false s

/-- LD Vx, K (R107): the lowest pressed key, or hold PC and say so in awaiting_key. -/
def execLdVxK (x : RegIx) (s : State) : Result :=
  match s.firstPressed with
  | some k => .next (s.setV x (k.setWidth 8)).advance
  | none => .next s.awaitKey

/-- LD Vx, DT (R108). -/
def execLdVxDt (x : RegIx) (s : State) : Result := .next (s.setV x s.dt).advance

/-- LD DT, Vx (R109, 30_encoding.md R74). -/
def execLdDtVx (x : RegIx) (s : State) : Result := .next (s.setDt (s.getV x)).advance

/-- LD ST, Vx (R110). -/
def execLdStVx (x : RegIx) (s : State) : Result := .next (s.setSt (s.getV x)).advance

end Sys2Proof.Machine
end

