-- ==== Sys2Proof/Machine/MemoryTransfer.lean ====
section
/-!
DEFINITION. The instructions that move data between registers and memory through I (spec/46_memory_transfer.md).
-/
namespace Sys2Proof.Machine

/-- I past the block V0..Vx: (I + x + 1) mod 2^16 (R116, R117). -/
def State.pastBlock (s : State) (x : RegIx) : Word := s.i + BitVec.ofNat 16 (blockSize x)

/-- LD B, Vx (R115): I is unchanged. -/
def execLdB (x : RegIx) (s : State) : Result :=
  guarded (s.checkWrite s.addrI 3) (s.writeBytes s.addrI (digits (s.getV x))).advance

/-- LD [I], Vx (R116). -/
def execStoreRegs (x : RegIx) (s : State) : Result :=
  guarded (s.checkWrite s.addrI (blockSize x))
    ((s.writeBytes s.addrI (s.regBlock x)).setI (s.pastBlock x)).advance

/-- LD Vx, [I] (R117). -/
def execLoadRegs (x : RegIx) (s : State) : Result :=
  guarded (s.checkRead s.addrI (blockSize x)) ((s.loadBlock x s.addrI).setI (s.pastBlock x)).advance

end Sys2Proof.Machine
end

