-- ==== Sys2Proof/Machine/HostOps.lean ====
section
/-!
DEFINITION. The host's transactions other than `step` (spec/60_exceptions.md R133): what each changes and what it answers,
and the delivery of the environment's input to the coming step (spec/70_reset_and_hazards.md R143; log 1 to 3).
-/
namespace Sys2Proof.Machine

/-- The code of a transaction that is turned away (60_exceptions.md R119). -/
def HostError.code : HostError → Nat
  | .romTooLarge => 8
  | .romUnreadable => 9
  | .badKeyIndex => 10

/-- The code of what a transaction answers, on the code space of a step's (60_exceptions.md R119): `okCode` unless it is
turned away (log 13). -/
def HostResult.code : HostResult → Nat
  | .ok => okCode
  | .key _ => okCode
  | .cells _ => okCode
  | .refused e => e.code

/-- `reset()` at any time: every piece of the spec's state to its reset value (70_reset_and_hazards.md R134); the
fields that are the model's own stay (log 14). -/
def State.hostReset (s : State) : State :=
  { State.reset with subnAdvancesPc := s.subnAdvancesPc, rnd := s.rnd, inputs := s.inputs, freeIx := s.freeIx }

/-- Why a load fails, if it does (20_memory.md R52, R53). -/
def loadError : Option (List Byte) → Option HostError
  | none => some .romUnreadable
  | some bytes => if Config.entry + bytes.length > Config.memSize then some .romTooLarge else none

/-- `load(bytes)`: M[ENTRY + j] <- bytes[j], or nothing (20_memory.md R52-R54). -/
def State.hostLoad (s : State) (rom : Option (List Byte)) : State :=
  match rom, loadError rom with
  | some bytes, none => s.writeBytes Config.entry bytes
  | _, _ => s

/-- One timer's decrement, stopping at 0 (45_keypad_timer.md R111). -/
def countDown (t : Byte) : Byte := if t = 0 then 0 else t - 1

/-- `tick()` (R111). -/
def State.tick (s : State) : State := { s with dt := countDown s.dt, st := countDown s.st }

/-- `set_key(index, pressed)`; an index above 15 changes nothing (R113). -/
def State.setKey (s : State) (index : Nat) (pressed : Bool) : State :=
  if h : index < 16 then { s with keys := s.keys.set index pressed } else s

/-- `render()`: 32 rows of 64 cells, row r being FB[64r .. 64r + 63] (44_display.md R104). -/
def State.render (s : State) : List (List Bool) :=
  (List.range Config.displayH).map (fun r =>
    (List.range Config.displayW).map (fun c => fbCell s.fb (r * Config.displayW + c)))

/-- The output sound_on (45_keypad_timer.md R112). -/
def State.soundOn (s : State) : Bool := s.st != 0

/-- What a transaction changes. -/
def HostOp.apply (s : State) : HostOp → State
  | .reset => s.hostReset
  | .load rom => s.hostLoad rom
  | .tick => s.tick
  | .setKey index pressed => s.setKey index pressed
  | .isKeyPressed _ => s
  | .render => s

/-- What a transaction answers (60_exceptions.md R133; log 13). -/
def HostOp.answer (s : State) : HostOp → HostResult
  | .reset => .ok
  | .load rom =>
    match loadError rom with
    | some e => .refused e
    | none => .ok
  | .tick => .ok
  | .setKey index _ => if index < 16 then .ok else .refused .badKeyIndex
  | .isKeyPressed index =>
    match s.keys[index]? with
    | some pressed => .key pressed
    | none => .refused .badKeyIndex
  | .render => .cells s.render

/-- The transactions one after another, each reading the state left by the ones before it (20_memory.md R56). -/
def applyOps (s : State) (ops : List HostOp) : State := ops.foldl HostOp.apply s

/-- What happens before the next instruction: the environment's next input is taken, its transactions land and its
random byte becomes the step's (log 1). With no input left the host makes no transaction (log 2) and the random
byte is a free value (log 3). -/
def State.deliver (s : State) : State :=
  match s.inputs with
  | [] => { s with rnd := Config.freeRnd s.freeIx, freeIx := s.freeIx + 1 }
  | inp :: rest => { applyOps { s with inputs := rest } inp.ops with rnd := inp.rnd }

end Sys2Proof.Machine
end

