-- ==== Sys2Proof/Machine/Step.lean ====
section
/-!
DEFINITION. One step: the environment's input is delivered (log 1), then the core fetches, decodes and executes one
instruction (spec/30_encoding.md R61).
-/
namespace Sys2Proof.Machine

/-- `step(rnd)` of the spec, the random byte being the state's field rnd (30_encoding.md R61). The faults come in the
order of 60_exceptions.md R123. -/
def coreStep (s : State) : Host.Outcome State Fault Refusal :=
  if pcOk s.pc then
    match decodeWord s.fetchWord with
    | .ok i => exec i s
    | .error _ => raise (.unknownOpcode s.fetchWord s.pc)
  else raise (.invalidPc s.pc)

/-- One step of the machine. -/
def step (s : State) : Host.Outcome State Fault Refusal := coreStep s.deliver

/-- The coming input without its host transactions, which could move PC or replace the word (log 6). -/
def withoutOps : List StepInput → List StepInput
  | [] => []
  | inp :: rest => { inp with ops := [] } :: rest

/-- The state with the nbits-bit instruction w stored at PC, so that the next step fetches exactly it. Where the fetch
refuses PC nothing is stored (log 6). -/
def State.withFetchWord (s : State) (nbits w : Nat) : State :=
  let t := { s with inputs := withoutOps s.inputs }
  if pcOk s.pc then t.writeBytes s.pc.toNat (bytesOfWord (BitVec.ofNat 16 (w % 2 ^ nbits))) else t

end Sys2Proof.Machine
end

