-- ==== Sys2Proof/Safety.lean ====
section
/-!
DEFINITION. The terms claims are written in: what an instruction may write and the frame that follows, completing in a state,
the invariant of every state a run can be in, the pixels of a sprite, and the words the decoder refuses.
-/
namespace Sys2Proof.Machine

/-! ## Completing and failing -/

/-- The outcome is a next state with the property. -/
def Yields (r : Result) (p : State → Prop) : Prop := ∃ t, r = .next t ∧ p t

/-- An outcome with its next state mapped; a fault or a refusal stays. -/
def mapNext (f : State → State) : Result → Result
  | .next t => .next (f t)
  | .fault e => .fault e
  | .refused e => .refused e

/-- k steps of the machine. -/
def runFor (k : Nat) (s : State) : Result := Host.Core.run core k s

/-! ## Frames -/

/-- What may be written. By default nothing. PC and awaiting_key are not part of a frame: every statement says what
they become. -/
structure MayWrite where
  /-- general registers -/
  regs : List RegIx := []
  /-- the index register I -/
  index : Bool := false
  /-- the stack pointer -/
  sp : Bool := false
  /-- stack slots -/
  slots : List (BitVec 4) := []
  /-- the delay timer -/
  dt : Bool := false
  /-- the sound timer -/
  st : Bool := false
  /-- the display -/
  display : Bool := false
  /-- the key states -/
  keys : Bool := false
  /-- the first of the memory bytes that may be written -/
  base : Nat := 0
  /-- how many memory bytes may be written -/
  count : Nat := 0

/-- Everything that is not named in `w` is the same in t as in s: every register, I, SP, every stack slot, both timers,
every display cell, every key, every byte of memory outside the `count` bytes at `base`, and the model's own
fields. -/
def Frame (w : MayWrite) (s t : State) : Prop :=
  (∀ r, r ∉ w.regs → t.getV r = s.getV r) ∧
  (w.index = false → t.i = s.i) ∧
  (w.sp = false → t.sp = s.sp) ∧
  (∀ j, j ∉ w.slots → t.getSlot j = s.getSlot j) ∧
  (w.dt = false → t.dt = s.dt) ∧
  (w.st = false → t.st = s.st) ∧
  (w.display = false → ∀ j, fbCell t.fb j = fbCell s.fb j) ∧
  (w.keys = false → t.keys = s.keys) ∧
  (∀ a, a < w.base ∨ w.base + w.count ≤ a → t.readMem a = s.readMem a) ∧
  t.subnAdvancesPc = s.subnAdvancesPc ∧ t.rnd = s.rnd ∧ t.inputs = s.inputs ∧ t.freeIx = s.freeIx

/-- The instruction advances normally: PC + 2, and no wait for a key (10_state.md R21, R30). -/
def Advanced (s t : State) : Prop := t.pc = s.pc + 2 ∧ t.awaitingKey = false

/-- The general registers an instruction writes, its destination and VF where it is written as the flag
(10_state.md R18). -/
def writtenRegs : Instr → List RegIx
  | .ldImm x _ => [x]
  | .addImm x _ => [x]
  | .ldReg x _ => [x]
  | .orReg x _ => [x]
  | .andReg x _ => [x]
  | .xorReg x _ => [x]
  | .addReg x _ => [x, vf]
  | .subReg x _ => [x, vf]
  | .shr x => [x, vf]
  | .subnReg x _ => [x, vf]
  | .shl x => [x, vf]
  | .rnd x _ => [x]
  | .drw _ _ _ => [vf]
  | .ldVxDt x => [x]
  | .ldVxK x => [x]
  | .loadRegs x => (List.range (x.toNat + 1)).map (BitVec.ofNat 4)
  | .cls => []
  | .ret => []
  | .jp _ => []
  | .call _ => []
  | .seImm _ _ => []
  | .sneImm _ _ => []
  | .seReg _ _ => []
  | .sneReg _ _ => []
  | .ldI _ => []
  | .jpV0 _ => []
  | .skp _ => []
  | .sknp _ => []
  | .ldDtVx _ => []
  | .ldStVx _ => []
  | .addI _ => []
  | .ldF _ => []
  | .ldB _ => []
  | .storeRegs _ => []

/-! ## The invariant -/

/-- What holds of every state from reset on: memory in canonical form; the glyph region as reset left it (20_memory.md
R44); every slot of an active call holds an address an instruction can be fetched from (10_state.md R22); S[0] is
never written (R25); PC is at most 0x10FE, so it never wraps (R22). -/
structure State.Inv (s : State) : Prop where
  canonical : memWf s.mem
  glyphs : ∀ a, a < Config.glyphEnd → s.readMem a = blankByte a
  slots : ∀ j : BitVec 4, 1 ≤ j.toNat → j.toNat ≤ s.sp.toNat → pcOk (s.getSlot j) = true
  slotZero : s.getSlot 0 = 0
  pcBound : s.pc.toNat ≤ 0x10FE

/-! ## Sprites -/

/-- The sprite of n bytes at I, drawn at column x and row y, has a lit bit at linear index j: bit c of row r, at
(y + r) * 64 + (x + c), not wrapped (44_display.md R102). -/
def SpriteLights (s : State) (x y : Byte) (n j : Nat) : Prop :=
  ∃ r c, r < n ∧ c < 8 ∧ (s.readMem (s.i.toNat + r)).getLsbD (7 - c) = true ∧
    j = (y.toNat + r) * 64 + (x.toNat + c)

/-! ## Words -/

/-- The unknown words of 30_encoding.md R71, by plain arithmetic on the word's value. -/
def unknownWord (w : Nat) : Bool :=
  (w / 4096 == 0x0 && !([0xE0, 0xEE] : List Nat).contains (w % 256)) ||
  (w / 4096 == 0x8 && ([0x8, 0x9, 0xA, 0xB, 0xC, 0xD, 0xF] : List Nat).contains (w % 16)) ||
  (w / 4096 == 0xE && !([0x9E, 0xA1] : List Nat).contains (w % 256)) ||
  (w / 4096 == 0xF &&
    !([0x07, 0x0A, 0x15, 0x18, 0x1E, 0x29, 0x33, 0x55, 0x65] : List Nat).contains (w % 256))

/-- The bits of a word its instruction does not use (30_encoding.md R67, R68, R70): bits 11..8 in family 0, the low
nibble in families 5 and 9, y in 8xy6 and 8xyE. -/
def ignoredBits (w : Word) : Word :=
  if w.toNat / 4096 = 0x0 then 0x0F00
  else if w.toNat / 4096 = 0x5 ∨ w.toNat / 4096 = 0x9 then 0x000F
  else if w.toNat / 4096 = 0x8 ∧ (w.toNat % 16 = 0x6 ∨ w.toNat % 16 = 0xE) then 0x00F0
  else 0x0000

end Sys2Proof.Machine
end

