-- ==== Sys2Proof/Certificates/Slice0/Obligations.lean ====
section
/-!
DEFINITION. The statements about the model, in the order of OBLIGATIONS.json. Each docstring names the rules of spec/ it
formalises. A statement of an instruction's result is also its completion: its conclusion is that exec answers a next
state (Yields) under conditions on the state and the operands alone, and it says everything that state holds: the
results, PC, awaiting_key and the frame.
-/
open Sys2Proof Sys2Proof.Machine

/-! ## Reset and host -/

/-- R34: the state after reset. -/
def Obligations.ResetStateHoldsResetValues : Prop :=
  (∀ x, State.reset.getV x = 0) ∧ State.reset.i = 0 ∧ State.reset.pc = 0x200 ∧ State.reset.sp = 0 ∧
  (∀ j, State.reset.getSlot j = 0) ∧ State.reset.dt = 0 ∧ State.reset.st = 0 ∧
  (∀ j, fbCell State.reset.fb j = false) ∧ (∀ k : RegIx, State.reset.keys[k.toNat] = false) ∧
  (∀ a, a < 0x50 → State.reset.readMem a = Config.glyphTable.getD a 0) ∧
  (∀ a, 0x50 ≤ a → State.reset.readMem a = 0) ∧
  State.reset.awaitingKey = false ∧ State.reset.soundOn = false

/-- R45: the glyph bytes as reset memory holds them, glyph d at 5 * d. -/
def Obligations.GlyphBytesAfterReset : Prop :=
  State.reset.readBytes 0x000 20 =
    [0xF0, 0x90, 0x90, 0x90, 0xF0, 0x20, 0x60, 0x20, 0x20, 0x70,
     0xF0, 0x10, 0xF0, 0x80, 0xF0, 0xF0, 0x10, 0xF0, 0x10, 0xF0] ∧
  State.reset.readBytes 0x014 20 =
    [0x90, 0x90, 0xF0, 0x10, 0x10, 0xF0, 0x80, 0xF0, 0x10, 0xF0,
     0xF0, 0x80, 0xF0, 0x90, 0xF0, 0xF0, 0x10, 0x20, 0x40, 0x40] ∧
  State.reset.readBytes 0x028 20 =
    [0xF0, 0x90, 0xF0, 0x90, 0xF0, 0xF0, 0x90, 0xF0, 0x10, 0xF0,
     0xF0, 0x90, 0xF0, 0x90, 0x90, 0xE0, 0x90, 0xE0, 0x90, 0xE0] ∧
  State.reset.readBytes 0x03C 20 =
    [0xF0, 0x80, 0x80, 0x80, 0xF0, 0xE0, 0x90, 0x90, 0x90, 0xE0,
     0xF0, 0x80, 0xF0, 0x80, 0xF0, 0xF0, 0x80, 0xF0, 0x80, 0x80]

/-- The invariant of StepKeepsInvariant holds at reset. -/
def Obligations.ResetMeetsInvariant : Prop := State.reset.Inv

/-- R139: with nothing loaded the zero word at 0x200 is fetched and raises UnknownOpcode, and so does any fetch of zero
memory. -/
def Obligations.ZeroMemoryFetchRaisesUnknownOpcode : Prop :=
  step State.reset = .fault (.unknownOpcode 0x0000 0x200) ∧
  ∀ s : State, pcOk s.deliver.pc = true →
    s.deliver.readMem s.deliver.pc.toNat = 0 → s.deliver.readMem (s.deliver.pc.toNat + 1) = 0 →
    step s = .fault (.unknownOpcode 0x0000 s.deliver.pc)

/-- R134: a reset at any time puts every piece of the spec's state to its reset value. The model's own fields, which are
no state of the core, are set aside by taking them from the reset state. -/
def Obligations.HostResetRestoresResetState : Prop :=
  ∀ s : State, { HostOp.apply s .reset with
    subnAdvancesPc := State.reset.subnAdvancesPc, rnd := State.reset.rnd, inputs := State.reset.inputs,
    freeIx := State.reset.freeIx } = State.reset

/-- R52, R54: a load writes exactly the ROM's bytes at ENTRY, or is refused and writes nothing. -/
def Obligations.LoadWritesOnlyTheRom : Prop :=
  ∀ (s : State) (bytes : List Byte),
    (bytes.length ≤ 3584 →
      HostOp.answer s (.load (some bytes)) = .ok ∧
      (∀ j (h : j < bytes.length), (HostOp.apply s (.load (some bytes))).readMem (0x200 + j) = bytes[j]) ∧
      Frame { base := 0x200, count := bytes.length } s (HostOp.apply s (.load (some bytes))) ∧
      (HostOp.apply s (.load (some bytes))).pc = s.pc ∧
      (HostOp.apply s (.load (some bytes))).awaitingKey = s.awaitingKey) ∧
    (3584 < bytes.length →
      HostOp.answer s (.load (some bytes)) = .refused .romTooLarge ∧ HostOp.apply s (.load (some bytes)) = s)

/-- R111: n ticks take each timer down by n, stopping at 0, and change nothing else; an instruction changes a timer only
by writing it. -/
def Obligations.TicksCountTimersDownToZero : Prop :=
  ∀ (s : State) (n : Nat),
    (applyOps s (List.replicate n .tick)).dt.toNat = s.dt.toNat - n ∧
    (applyOps s (List.replicate n .tick)).st.toNat = s.st.toNat - n ∧
    Frame { dt := true, st := true } s (applyOps s (List.replicate n .tick)) ∧
    (applyOps s (List.replicate n .tick)).pc = s.pc ∧
    (applyOps s (List.replicate n .tick)).awaitingKey = s.awaitingKey ∧
    ∀ i t, exec i s = .next t →
      (t.dt = s.dt ∨ ∃ x, i = .ldDtVx x ∧ t.dt = s.getV x) ∧ (t.st = s.st ∨ ∃ x, i = .ldStVx x ∧ t.st = s.getV x)

/-- R113, R114: set_key(k, pressed) writes K[k], is_key_pressed(k) answers K[k], K being the key states that SKP, SKNP and
LD Vx, K read (R105 to R107); and an index above 15 is refused. -/
def Obligations.SetKeyThenIsKeyPressed : Prop :=
  ∀ (s : State) (k : Nat) (pressed : Bool),
    (∀ h : k < 16,
      HostOp.answer s (.isKeyPressed k) = .key s.keys[k] ∧
      HostOp.answer s (.setKey k pressed) = .ok ∧
      (HostOp.apply s (.setKey k pressed)).keys[k] = pressed ∧
      (∀ j (hj : j < 16), j ≠ k → (HostOp.apply s (.setKey k pressed)).keys[j] = s.keys[j]) ∧
      HostOp.answer (HostOp.apply s (.setKey k pressed)) (.isKeyPressed k) = .key pressed ∧
      (∀ j, j ≤ 15 → j ≠ k →
        HostOp.answer (HostOp.apply s (.setKey k pressed)) (.isKeyPressed j) =
          HostOp.answer s (.isKeyPressed j))) ∧
    (15 < k →
      HostOp.answer s (.setKey k pressed) = .refused .badKeyIndex ∧ HostOp.apply s (.setKey k pressed) = s ∧
      HostOp.answer s (.isKeyPressed k) = .refused .badKeyIndex) ∧
    HostOp.apply s (.isKeyPressed k) = s ∧
    Frame { keys := true } s (HostOp.apply s (.setKey k pressed)) ∧
    (HostOp.apply s (.setKey k pressed)).pc = s.pc ∧
    (HostOp.apply s (.setKey k pressed)).awaitingKey = s.awaitingKey

/-- R104: render answers 32 rows of 64 cells, row r being FB[64r .. 64r + 63], and changes nothing. -/
def Obligations.RenderAnswersTheCells : Prop :=
  ∀ s : State, HostOp.apply s .render = s ∧ ∃ rows, HostOp.answer s .render = .cells rows ∧ rows.length = 32 ∧
    ∀ r (hr : r < rows.length), rows[r].length = 64 ∧
      ∀ c (hc : c < rows[r].length), rows[r][c] = fbCell s.fb (64 * r + c)

/-- R112: sound_on is 1 exactly when ST is not 0. -/
def Obligations.SoundOnIffSoundTimerRuns : Prop :=
  ∀ s : State, s.soundOn = true ↔ s.st.toNat ≠ 0

/-- Log 1 to 3, the model's choice: before a step the next input is taken, its transactions land in order and its random
byte becomes the step's; with no input left nothing lands and the byte is the free value. -/
def Obligations.EnvironmentInputIsDelivered : Prop :=
  ∀ s : State,
    (∀ inp rest, s.inputs = inp :: rest →
      s.deliver.rnd = inp.rnd ∧ s.deliver.inputs = rest ∧ s.deliver.freeIx = s.freeIx ∧
      ∀ op ops, inp.ops = op :: ops →
        s.deliver = State.deliver
          { HostOp.apply s op with inputs := { ops := ops, rnd := inp.rnd } :: rest }) ∧
    (∀ inp rest, s.inputs = inp :: rest → inp.ops = [] →
      Frame {} { s with rnd := inp.rnd, inputs := rest } s.deliver ∧ s.deliver.pc = s.pc ∧
        s.deliver.awaitingKey = s.awaitingKey) ∧
    (s.inputs = [] →
      Frame {} { s with rnd := Config.freeRnd s.freeIx, freeIx := s.freeIx + 1 } s.deliver ∧
        s.deliver.pc = s.pc ∧ s.deliver.awaitingKey = s.awaitingKey)

/-- R119: the numeric codes 0 to 10, and the error output of a step, which is 0 exactly when the step completes and which
every step has; and R53, with the model's form of an unreadable ROM, a load of none (log 13): it is turned
away and changes nothing. -/
def Obligations.FaultAndHostCodes : Prop :=
  (∀ w pc, (Fault.unknownOpcode w pc).code = 1) ∧ (∀ pc sp, (Fault.stackOverflow pc sp).code = 2) ∧
  (∀ pc sp, (Fault.stackUnderflow pc sp).code = 3) ∧ (∀ pc a k, (Fault.memoryOutOfRange pc a k).code = 4) ∧
  (∀ pc, (Fault.invalidPc pc).code = 5) ∧ (∀ pc k, (Fault.keyIndexOutOfRange pc k).code = 6) ∧
  (∀ pc a, (Fault.glyphRegionWrite pc a).code = 7) ∧
  HostError.romTooLarge.code = 8 ∧ HostError.romUnreadable.code = 9 ∧ HostError.badKeyIndex.code = 10 ∧
  HostResult.ok.code = 0 ∧ (∀ e, (HostResult.refused e).code = e.code) ∧
  (∀ b, (HostResult.key b).code = 0) ∧ (∀ rows, (HostResult.cells rows).code = 0) ∧
  (∀ f, resultCode (.fault f) = some f.code) ∧
  (∀ s, (resultCode (step s) = some 0 ↔ ∃ t, step s = .next t) ∧ resultCode (step s) ≠ none) ∧
  ∀ s, HostOp.answer s (.load none) = .refused .romUnreadable ∧ HostOp.apply s (.load none) = s

/-! ## Fetch and decode -/

/-- Where PC can be fetched from and the two bytes there decode to i, the step is exec of i on the state the
environment's input leaves (R61). -/
def Obligations.StepRunsTheDecodedInstruction : Prop :=
  ∀ (s : State) (i : Instr) (rest : List Byte),
    s.deliver.pc.toNat % 2 = 0 → 0x200 ≤ s.deliver.pc.toNat → s.deliver.pc.toNat ≤ 0xFFE →
    decode (s.deliver.readBytes s.deliver.pc.toNat 2) = .ok (i, rest) →
    step s = exec i s.deliver

/-- R49: the fetch is big-endian. -/
def Obligations.FetchIsBigEndian : Prop :=
  ∀ s : State, s.fetchWord.toNat = (s.readMem s.pc.toNat).toNat * 256 + (s.readMem (s.pc.toNat + 1)).toNat

/-- R22: the step raises InvalidPc exactly when PC is odd, below ENTRY or above 0xFFE; no instruction raises it. -/
def Obligations.InvalidPcExactlyWhenPcUnfetchable : Prop :=
  ∀ s : State, step s = .fault (.invalidPc s.deliver.pc) ↔
    (s.deliver.pc.toNat % 2 = 1 ∨ s.deliver.pc.toNat < 0x200 ∨ 0xFFE < s.deliver.pc.toNat)

/-- R71: the words the decoder refuses are exactly the unknown ones. -/
def Obligations.DecoderRefusesExactlyUnknownWords : Prop :=
  ∀ w : Word, (∃ e, decodeWord w = .error e) ↔ unknownWord w.toNat = true

/-- R71: from a PC it can fetch from, a step raises UnknownOpcode exactly for an unknown word, with the word and PC. -/
def Obligations.StepRaisesUnknownOpcode : Prop :=
  ∀ s : State, pcOk s.deliver.pc = true →
    (step s = .fault (.unknownOpcode s.deliver.fetchWord s.deliver.pc) ↔
      unknownWord s.deliver.fetchWord.toNat = true)

/-- Words written out from R64 and R66 decode to the instructions they stand for. -/
def Obligations.SampleWordsDecode : Prop :=
  decodeWord 0x00E0 = .ok .cls ∧ decodeWord 0x2300 = .ok (.call 0x300) ∧ decodeWord 0x3310 = .ok (.seImm 3 0x10) ∧
  decodeWord 0x5121 = .ok (.seReg 1 2) ∧ decodeWord 0x8F14 = .ok (.addReg 15 1) ∧
  decodeWord 0x850E = .ok (.shl 5) ∧ decodeWord 0xA2F0 = .ok (.ldI 0x2F0) ∧ decodeWord 0xC30F = .ok (.rnd 3 0x0F) ∧
  decodeWord 0xD125 = .ok (.drw 1 2 5) ∧ decodeWord 0xE2A1 = .ok (.sknp 2) ∧ decodeWord 0xF615 = .ok (.ldDtVx 6) ∧
  decodeWord 0xF255 = .ok (.storeRegs 2)

/-- R63, R64, R66: the words of each format decode to the format's instruction with the fields in its places; z stands for
the bits the decoder ignores (R67, R68, R70). -/
def Obligations.DecodeFollowsTheFormats : Prop :=
  ∀ (z x y n : BitVec 4) (kk : Byte) (nnn : BitVec 12),
    (decodeWord (0x0#4 ++ z ++ 0xE0#8) = .ok .cls ∧ decodeWord (0x0#4 ++ z ++ 0xEE#8) = .ok .ret) ∧
    (decodeWord (0x1#4 ++ nnn) = .ok (.jp (nnn.setWidth 16)) ∧
      decodeWord (0x2#4 ++ nnn) = .ok (.call (nnn.setWidth 16)) ∧
      decodeWord (0xA#4 ++ nnn) = .ok (.ldI (nnn.setWidth 16)) ∧
      decodeWord (0xB#4 ++ nnn) = .ok (.jpV0 (nnn.setWidth 16))) ∧
    (decodeWord (0x3#4 ++ x ++ kk) = .ok (.seImm x kk) ∧ decodeWord (0x4#4 ++ x ++ kk) = .ok (.sneImm x kk) ∧
      decodeWord (0x6#4 ++ x ++ kk) = .ok (.ldImm x kk) ∧ decodeWord (0x7#4 ++ x ++ kk) = .ok (.addImm x kk) ∧
      decodeWord (0xC#4 ++ x ++ kk) = .ok (.rnd x kk)) ∧
    (decodeWord (0x5#4 ++ x ++ y ++ z) = .ok (.seReg x y) ∧ decodeWord (0x9#4 ++ x ++ y ++ z) = .ok (.sneReg x y)) ∧
    (decodeWord (0x8#4 ++ x ++ y ++ 0x0#4) = .ok (.ldReg x y) ∧
      decodeWord (0x8#4 ++ x ++ y ++ 0x1#4) = .ok (.orReg x y) ∧
      decodeWord (0x8#4 ++ x ++ y ++ 0x2#4) = .ok (.andReg x y) ∧
      decodeWord (0x8#4 ++ x ++ y ++ 0x3#4) = .ok (.xorReg x y) ∧
      decodeWord (0x8#4 ++ x ++ y ++ 0x4#4) = .ok (.addReg x y) ∧
      decodeWord (0x8#4 ++ x ++ y ++ 0x5#4) = .ok (.subReg x y) ∧
      decodeWord (0x8#4 ++ x ++ z ++ 0x6#4) = .ok (.shr x) ∧
      decodeWord (0x8#4 ++ x ++ y ++ 0x7#4) = .ok (.subnReg x y) ∧
      decodeWord (0x8#4 ++ x ++ z ++ 0xE#4) = .ok (.shl x)) ∧
    decodeWord (0xD#4 ++ x ++ y ++ n) = .ok (.drw x y n.toNat) ∧
    (decodeWord (0xE#4 ++ x ++ 0x9E#8) = .ok (.skp x) ∧ decodeWord (0xE#4 ++ x ++ 0xA1#8) = .ok (.sknp x) ∧
      decodeWord (0xF#4 ++ x ++ 0x07#8) = .ok (.ldVxDt x) ∧ decodeWord (0xF#4 ++ x ++ 0x0A#8) = .ok (.ldVxK x) ∧
      decodeWord (0xF#4 ++ x ++ 0x15#8) = .ok (.ldDtVx x) ∧ decodeWord (0xF#4 ++ x ++ 0x18#8) = .ok (.ldStVx x) ∧
      decodeWord (0xF#4 ++ x ++ 0x1E#8) = .ok (.addI x) ∧ decodeWord (0xF#4 ++ x ++ 0x29#8) = .ok (.ldF x) ∧
      decodeWord (0xF#4 ++ x ++ 0x33#8) = .ok (.ldB x) ∧ decodeWord (0xF#4 ++ x ++ 0x55#8) = .ok (.storeRegs x) ∧
      decodeWord (0xF#4 ++ x ++ 0x65#8) = .ok (.loadRegs x))

/-- Decoding the bytes the encoder writes gives back every well-formed instruction, with every operand. -/
def Obligations.DecodeOfEncodeIsTheInstruction : Prop :=
  ∀ (i : Instr) (rest : List Byte), i.wf = true → decode (encodeBytes i ++ rest) = .ok (i, rest)

/-- What the decoder reads is well-formed and encodes to the same word with the ignored bits 0 (R67, R68, R70, R76). -/
def Obligations.EncodeOfDecodeIsTheWord : Prop :=
  ∀ (w : Word) (i : Instr), decodeWord w = .ok i → i.wf = true ∧ encode i = w &&& ~~~ ignoredBits w

/-! ## Control flow -/

/-- R77, R84: the jumps. -/
def Obligations.JumpsSetThePc : Prop :=
  ∀ (nnn : Word) (s : State), nnn.toNat ≤ 0xFFF →
    Yields (exec (.jp nnn) s) (fun t => t.pc = nnn ∧ t.awaitingKey = false ∧ Frame {} s t) ∧
    Yields (exec (.jpV0 nnn) s) (fun t =>
      t.pc.toNat = nnn.toNat + (s.getV 0).toNat ∧ t.awaitingKey = false ∧ Frame {} s t)

/-- R78: CALL pushes its own address and jumps, or raises StackOverflow when SP = 15. -/
def Obligations.CallPushesItsOwnAddress : Prop :=
  ∀ (nnn : Word) (s : State),
    (s.sp ≠ 15 → Yields (exec (.call nnn) s) (fun t =>
      t.sp.toNat = s.sp.toNat + 1 ∧ t.getSlot t.sp = s.pc ∧ t.pc = nnn ∧ t.awaitingKey = false ∧
      Frame { sp := true, slots := [t.sp] } s t)) ∧
    (s.sp = 15 → exec (.call nnn) s = .fault (.stackOverflow s.pc s.sp))

/-- R79: RET pops and resumes at the popped address plus 2, or raises StackUnderflow when SP = 0. -/
def Obligations.RetResumesAfterTheCall : Prop :=
  ∀ s : State,
    (s.sp ≠ 0 → Yields (exec .ret s) (fun t =>
      t.sp.toNat + 1 = s.sp.toNat ∧ t.pc = s.getSlot s.sp + 2 ∧ t.awaitingKey = false ∧
      Frame { sp := true } s t)) ∧
    (s.sp = 0 → exec .ret s = .fault (.stackUnderflow s.pc s.sp))

/-- W7 for every state: a RET reached with the stack a CALL left resumes after the CALL, at the same depth. -/
def Obligations.CallThenRetComesBack : Prop :=
  ∀ (nnn : Word) (s t u : State), s.sp ≠ 15 → exec (.call nnn) s = .next t → u.sp = t.sp → u.stack = t.stack →
    Yields (exec .ret u) (fun r => r.pc = s.pc + 2 ∧ r.sp = s.sp)

/-- R80 to R83: the skips on registers and immediates. -/
def Obligations.SkipsAdvanceByFourWhenTaken : Prop :=
  ∀ (x y : RegIx) (kk : Byte) (s : State),
    Yields (exec (.seImm x kk) s) (fun t =>
      t.pc = (if s.getV x = kk then s.pc + 4 else s.pc + 2) ∧ t.awaitingKey = false ∧ Frame {} s t) ∧
    Yields (exec (.sneImm x kk) s) (fun t =>
      t.pc = (if s.getV x ≠ kk then s.pc + 4 else s.pc + 2) ∧ t.awaitingKey = false ∧ Frame {} s t) ∧
    Yields (exec (.seReg x y) s) (fun t =>
      t.pc = (if s.getV x = s.getV y then s.pc + 4 else s.pc + 2) ∧ t.awaitingKey = false ∧ Frame {} s t) ∧
    Yields (exec (.sneReg x y) s) (fun t =>
      t.pc = (if s.getV x ≠ s.getV y then s.pc + 4 else s.pc + 2) ∧ t.awaitingKey = false ∧ Frame {} s t)

/-! ## Arithmetic and logic -/

/-- R85, R87: the register loads. -/
def Obligations.RegisterLoadsCopyTheirSource : Prop :=
  ∀ (x y : RegIx) (kk : Byte) (s : State),
    Yields (exec (.ldImm x kk) s) (fun t => t.getV x = kk ∧ Advanced s t ∧ Frame { regs := [x] } s t) ∧
    Yields (exec (.ldReg x y) s) (fun t => t.getV x = s.getV y ∧ Advanced s t ∧ Frame { regs := [x] } s t)

/-- R86: the immediate add wraps and leaves the flag. -/
def Obligations.AddImmediateWrapsWithoutFlag : Prop :=
  ∀ (x : RegIx) (kk : Byte) (s : State),
    Yields (exec (.addImm x kk) s) (fun t =>
      (t.getV x).toNat = ((s.getV x).toNat + kk.toNat) % 256 ∧ Advanced s t ∧ Frame { regs := [x] } s t)

/-- R88 to R90: OR, AND and XOR bit by bit, with no flag. -/
def Obligations.LogicOperationsBitByBit : Prop :=
  ∀ (x y : RegIx) (s : State),
    Yields (exec (.orReg x y) s) (fun t =>
      (∀ b, (t.getV x).getLsbD b = ((s.getV x).getLsbD b || (s.getV y).getLsbD b)) ∧
      Advanced s t ∧ Frame { regs := [x] } s t) ∧
    Yields (exec (.andReg x y) s) (fun t =>
      (∀ b, (t.getV x).getLsbD b = ((s.getV x).getLsbD b && (s.getV y).getLsbD b)) ∧
      Advanced s t ∧ Frame { regs := [x] } s t) ∧
    Yields (exec (.xorReg x y) s) (fun t =>
      (∀ b, (t.getV x).getLsbD b = ((s.getV x).getLsbD b ^^ (s.getV y).getLsbD b)) ∧
      Advanced s t ∧ Frame { regs := [x] } s t)

/-- R91: the sum mod 256, and the carry in VF unless VF is the destination. -/
def Obligations.AddSetsCarryThenSum : Prop :=
  ∀ (x y : RegIx) (s : State),
    Yields (exec (.addReg x y) s) (fun t =>
      (t.getV x).toNat = ((s.getV x).toNat + (s.getV y).toNat) % 256 ∧
      (x ≠ vf → t.getV vf = if (s.getV x).toNat + (s.getV y).toNat > 255 then 1 else 0) ∧
      Advanced s t ∧ Frame { regs := [x, vf] } s t)

/-- R92: the difference Vx - Vy mod 256, and not borrow in VF unless VF is the destination. -/
def Obligations.SubSetsNotBorrowThenDifference : Prop :=
  ∀ (x y : RegIx) (s : State),
    Yields (exec (.subReg x y) s) (fun t =>
      (t.getV x).toNat = ((s.getV x).toNat + 256 - (s.getV y).toNat) % 256 ∧
      (x ≠ vf → t.getV vf = if (s.getV y).toNat > (s.getV x).toNat then 0 else 1) ∧
      Advanced s t ∧ Frame { regs := [x, vf] } s t)

/-- R94: the difference Vy - Vx mod 256 and not borrow, under both values of SUBN_ADVANCES_PC. -/
def Obligations.SubnReversesUnderBothParameterValues : Prop :=
  ∀ (x y : RegIx) (s : State),
    Yields (exec (.subnReg x y) s) (fun t =>
      (t.getV x).toNat = ((s.getV y).toNat + 256 - (s.getV x).toNat) % 256 ∧
      (x ≠ vf → t.getV vf = if (s.getV x).toNat > (s.getV y).toNat then 0 else 1) ∧
      t.pc = (if s.subnAdvancesPc = true then s.pc + 2 else s.pc) ∧ t.awaitingKey = false ∧
      Frame { regs := [x, vf] } s t)

/-- R93, R95: the shifts by one, with the bit shifted out in VF unless VF is the destination. -/
def Obligations.ShiftsSetTheBitShiftedOut : Prop :=
  ∀ (x : RegIx) (s : State),
    Yields (exec (.shr x) s) (fun t =>
      (t.getV x).toNat = (s.getV x).toNat / 2 ∧
      (x ≠ vf → (t.getV vf).toNat = (s.getV x).toNat % 2) ∧
      Advanced s t ∧ Frame { regs := [x, vf] } s t) ∧
    Yields (exec (.shl x) s) (fun t =>
      (t.getV x).toNat = (s.getV x).toNat * 2 % 256 ∧
      (x ≠ vf → (t.getV vf).toNat = (s.getV x).toNat / 128) ∧
      Advanced s t ∧ Frame { regs := [x, vf] } s t)

/-! ## Index and random -/

/-- R97 to R99: the writes of I. -/
def Obligations.IndexInstructionsSetTheIndex : Prop :=
  ∀ (x : RegIx) (nnn : Word) (s : State), nnn.toNat ≤ 0xFFF →
    Yields (exec (.ldI nnn) s) (fun t => t.i = nnn ∧ Advanced s t ∧ Frame { index := true } s t) ∧
    Yields (exec (.addI x) s) (fun t =>
      t.i.toNat = (s.i.toNat + (s.getV x).toNat) % 65536 ∧ Advanced s t ∧ Frame { index := true } s t) ∧
    Yields (exec (.ldF x) s) (fun t =>
      t.i.toNat = (s.getV x).toNat * 5 ∧ Advanced s t ∧ Frame { index := true } s t)

/-- R100: the step's random byte, whatever it is, under the mask. -/
def Obligations.RandomByteUnderTheMask : Prop :=
  ∀ (x : RegIx) (kk : Byte) (s : State),
    Yields (exec (.rnd x kk) s) (fun t =>
      (∀ b, (t.getV x).getLsbD b = (s.rnd.getLsbD b && kk.getLsbD b)) ∧ Advanced s t ∧ Frame { regs := [x] } s t)

/-- R61: the random byte of a step is consumed only by Cxkk; every other instruction does the same whatever it is. -/
def Obligations.RandomByteConsumedOnlyByRnd : Prop :=
  ∀ (i : Instr) (s : State) (b : Byte), (∀ x kk, i ≠ .rnd x kk) →
    exec i { s with rnd := b } = mapNext (fun t => { t with rnd := b }) (exec i s)

/-! ## Display -/

/-- R101: every cell 0. -/
def Obligations.ClsClearsEveryCell : Prop :=
  ∀ s : State, Yields (exec .cls s) (fun t =>
    (∀ j, fbCell t.fb j = false) ∧ Advanced s t ∧ Frame { display := true } s t)

/-- R102: a draw inverts exactly the on-screen cells of the sprite's lit bits, VF is 1 exactly if one of them was set,
nothing wraps; and it raises MemoryOutOfRange exactly when a sprite byte lies above 0xFFF. -/
def Obligations.DrawXorsTheSprite : Prop :=
  ∀ (x y : RegIx) (n : Nat) (s : State), n ≤ 15 →
    (¬ (0 < n ∧ 0xFFF < s.i.toNat + n - 1) →
      Yields (exec (.drw x y n) s) (fun t =>
        (∀ j, j < 2048 → SpriteLights s (s.getV x) (s.getV y) n j → fbCell t.fb j = !fbCell s.fb j) ∧
        (∀ j, ¬ SpriteLights s (s.getV x) (s.getV y) n j → fbCell t.fb j = fbCell s.fb j) ∧
        ((∃ j, j < 2048 ∧ SpriteLights s (s.getV x) (s.getV y) n j ∧ fbCell s.fb j = true) → t.getV vf = 1) ∧
        ((¬ ∃ j, j < 2048 ∧ SpriteLights s (s.getV x) (s.getV y) n j ∧ fbCell s.fb j = true) → t.getV vf = 0) ∧
        Advanced s t ∧ Frame { regs := [vf], display := true } s t)) ∧
    (0 < n ∧ 0xFFF < s.i.toNat + n - 1 →
      exec (.drw x y n) s = .fault (.memoryOutOfRange s.pc (max s.i.toNat 0x1000) .read))

/-- W6 for every sprite: drawing it twice in a row restores the display, and the second draw collides exactly if the
sprite has a lit bit on a cell that was clear before both. -/
def Obligations.DrawingTwiceRestoresTheDisplay : Prop :=
  ∀ (x y : RegIx) (n : Nat) (s t u : State), n ≤ 15 → x ≠ vf → y ≠ vf →
    exec (.drw x y n) s = .next t → exec (.drw x y n) t = .next u →
    (∀ j, fbCell u.fb j = fbCell s.fb j) ∧
    (u.getV vf = 1 ↔ ∃ j, j < 2048 ∧ SpriteLights s (s.getV x) (s.getV y) n j ∧ fbCell s.fb j = false)

/-! ## Keypad and timers -/

/-- R105, R106: the skips on a key's level, and the fault for an index above 15. -/
def Obligations.KeySkipsFollowTheKey : Prop :=
  ∀ (x : RegIx) (s : State),
    (∀ h : (s.getV x).toNat < 16,
      Yields (exec (.skp x) s) (fun t =>
        t.pc = (if s.keys[(s.getV x).toNat] = true then s.pc + 4 else s.pc + 2) ∧ t.awaitingKey = false ∧
        Frame {} s t) ∧
      Yields (exec (.sknp x) s) (fun t =>
        t.pc = (if s.keys[(s.getV x).toNat] = true then s.pc + 2 else s.pc + 4) ∧ t.awaitingKey = false ∧
        Frame {} s t)) ∧
    (15 < (s.getV x).toNat →
      exec (.skp x) s = .fault (.keyIndexOutOfRange s.pc (s.getV x)) ∧
      exec (.sknp x) s = .fault (.keyIndexOutOfRange s.pc (s.getV x)))

/-- R107: with a key pressed, the lowest one is stored; with none, PC is held and awaiting_key is set. -/
def Obligations.WaitForKeyStoresLowestOrHolds : Prop :=
  ∀ (x : RegIx) (s : State),
    (∀ k : RegIx, s.keys[k.toNat] = true → (∀ j : RegIx, j.toNat < k.toNat → s.keys[j.toNat] = false) →
      Yields (exec (.ldVxK x) s) (fun t =>
        (t.getV x).toNat = k.toNat ∧ Advanced s t ∧ Frame { regs := [x] } s t)) ∧
    ((∀ k : RegIx, s.keys[k.toNat] = false) →
      Yields (exec (.ldVxK x) s) (fun t => t.pc = s.pc ∧ t.awaitingKey = true ∧ Frame {} s t))

/-- The wait lasts as long as no key is pressed (R107, R142): for any number of steps with no host transaction between
them, PC stays, nothing is written, and awaiting_key says so. -/
def Obligations.KeyWaitLastsWhileNoKeyIsPressed : Prop :=
  ∀ (x : RegIx) (s : State), pcOk s.pc = true → decodeWord s.fetchWord = .ok (.ldVxK x) →
    (∀ k : RegIx, s.keys[k.toNat] = false) → (∀ inp, inp ∈ s.inputs → inp.ops = []) →
    ∀ k, Yields (runFor k s) (fun t =>
      t.pc = s.pc ∧ (∀ r, t.getV r = s.getV r) ∧ t.i = s.i ∧ t.sp = s.sp ∧ t.stack = s.stack ∧ t.dt = s.dt ∧
      t.st = s.st ∧ t.fb = s.fb ∧ t.keys = s.keys ∧ t.mem = s.mem ∧ (0 < k → t.awaitingKey = true))

/-- R108 to R110: the timer transfers. -/
def Obligations.TimerTransfers : Prop :=
  ∀ (x : RegIx) (s : State),
    Yields (exec (.ldVxDt x) s) (fun t => t.getV x = s.dt ∧ Advanced s t ∧ Frame { regs := [x] } s t) ∧
    Yields (exec (.ldDtVx x) s) (fun t => t.dt = s.getV x ∧ Advanced s t ∧ Frame { dt := true } s t) ∧
    Yields (exec (.ldStVx x) s) (fun t => t.st = s.getV x ∧ Advanced s t ∧ Frame { st := true } s t)

/-! ## Memory transfer -/

/-- R115: the decimal digits go to M[I .. I + 2], or the check of the addresses raises its fault. -/
def Obligations.BcdStoresTheDecimalDigits : Prop :=
  ∀ (x : RegIx) (s : State),
    (0x50 ≤ s.i.toNat → s.i.toNat + 2 ≤ 0xFFF →
      Yields (exec (.ldB x) s) (fun t =>
        (t.readMem s.i.toNat).toNat = (s.getV x).toNat / 100 ∧
        (t.readMem (s.i.toNat + 1)).toNat = (s.getV x).toNat / 10 % 10 ∧
        (t.readMem (s.i.toNat + 2)).toNat = (s.getV x).toNat % 10 ∧
        Advanced s t ∧ Frame { base := s.i.toNat, count := 3 } s t)) ∧
    (0xFFF < s.i.toNat + 2 →
      exec (.ldB x) s = .fault (.memoryOutOfRange s.pc (max s.i.toNat 0x1000) .write)) ∧
    (s.i.toNat < 0x50 → exec (.ldB x) s = .fault (.glyphRegionWrite s.pc s.i.toNat))

/-- R116: V0..Vx go to M[I .. I + x] and I moves past them, or the check of the addresses raises its fault. -/
def Obligations.StoreRegistersWritesTheBlock : Prop :=
  ∀ (x : RegIx) (s : State),
    (0x50 ≤ s.i.toNat → s.i.toNat + x.toNat ≤ 0xFFF →
      Yields (exec (.storeRegs x) s) (fun t =>
        (∀ r : RegIx, r.toNat ≤ x.toNat → t.readMem (s.i.toNat + r.toNat) = s.getV r) ∧
        t.i.toNat = (s.i.toNat + x.toNat + 1) % 65536 ∧
        Advanced s t ∧ Frame { index := true, base := s.i.toNat, count := x.toNat + 1 } s t)) ∧
    (0xFFF < s.i.toNat + x.toNat →
      exec (.storeRegs x) s = .fault (.memoryOutOfRange s.pc (max s.i.toNat 0x1000) .write)) ∧
    (s.i.toNat < 0x50 → exec (.storeRegs x) s = .fault (.glyphRegionWrite s.pc s.i.toNat))

/-- R117: M[I .. I + x] goes to V0..Vx and I moves past them, or the check of the addresses raises its fault. -/
def Obligations.LoadRegistersReadsTheBlock : Prop :=
  ∀ (x : RegIx) (s : State),
    (s.i.toNat + x.toNat ≤ 0xFFF →
      Yields (exec (.loadRegs x) s) (fun t =>
        (∀ r : RegIx, r.toNat ≤ x.toNat → t.getV r = s.readMem (s.i.toNat + r.toNat)) ∧
        (∀ r : RegIx, x.toNat < r.toNat → t.getV r = s.getV r) ∧
        t.i.toNat = (s.i.toNat + x.toNat + 1) % 65536 ∧
        Advanced s t ∧ Frame { regs := writtenRegs (.loadRegs x), index := true } s t)) ∧
    (0xFFF < s.i.toNat + x.toNat →
      exec (.loadRegs x) s = .fault (.memoryOutOfRange s.pc (max s.i.toNat 0x1000) .read))

/-- A load of a block from where a store put it gives the registers back (R116, R117: the inverse transfer). -/
def Obligations.LoadAfterStoreGivesRegistersBack : Prop :=
  ∀ (x : RegIx) (s t u : State), exec (.storeRegs x) s = .next t → u.mem = t.mem → u.i = s.i →
    Yields (exec (.loadRegs x) u) (fun r => ∀ j : RegIx, j.toNat ≤ x.toNat → r.getV j = s.getV j)

/-- R58: bytes a store wrote are what the next fetch from there reads. -/
def Obligations.StoredBytesAreFetched : Prop :=
  ∀ (x r : RegIx) (s t : State), exec (.storeRegs x) s = .next t → r.toNat < x.toNat →
    State.fetchWord { t with pc := s.i + BitVec.ofNat 16 r.toNat } = wordOfBytes (s.getV r) (s.getV (r + 1))

/-- R48: the write check reports the fault of the lowest failing address, and passes exactly if every address does. -/
def Obligations.WriteCheckReportsLowestAddress : Prop :=
  ∀ (s : State) (base count : Nat),
    (∀ f, s.checkWrite base count = some f ↔
      ∃ j, j < count ∧ (∀ k, k < j → 0x50 ≤ base + k ∧ base + k ≤ 0xFFF) ∧
        ((0xFFF < base + j ∧ f = .memoryOutOfRange s.pc (base + j) .write) ∨
         (base + j < 0x50 ∧ f = .glyphRegionWrite s.pc (base + j)))) ∧
    (s.checkWrite base count = none ↔ ∀ j, j < count → 0x50 ≤ base + j ∧ base + j ≤ 0xFFF)

/-! ## The whole machine -/

/-- R44: no instruction changes a byte of the glyph region; a store that starts there raises GlyphRegionWrite, and reads
of the region are allowed. -/
def Obligations.GlyphRegionIsNeverMutated : Prop :=
  (∀ (i : Instr) (s t : State), exec i s = .next t → ∀ a, a < 0x50 → t.readMem a = s.readMem a) ∧
  (∀ (x : RegIx) (s : State), s.i.toNat < 0x50 →
    exec (.ldB x) s = .fault (.glyphRegionWrite s.pc s.i.toNat) ∧
    exec (.storeRegs x) s = .fault (.glyphRegionWrite s.pc s.i.toNat) ∧
    (∃ t, exec (.loadRegs x) s = .next t) ∧ ∀ y n, n ≤ 15 → ∃ t, exec (.drw x y n) s = .next t)

/-- R18, the column 'written by': a general register changes only in an instruction the table names for it. -/
def Obligations.RegistersWrittenOnlyAsTabled : Prop :=
  ∀ (i : Instr) (s t : State), exec i s = .next t → ∀ r, r ∉ writtenRegs i → t.getV r = s.getV r

/-- R19, R23, R24, R27, R28, R29, R42: each other piece of state changes only in the instructions that write it. -/
def Obligations.UnitsWrittenOnlyByTheirInstructions : Prop :=
  ∀ (i : Instr) (s t : State), exec i s = .next t →
    (t.stack ≠ s.stack → ∃ nnn, i = .call nnn) ∧
    (t.sp ≠ s.sp → (∃ nnn, i = .call nnn) ∨ i = .ret) ∧
    (t.dt ≠ s.dt → ∃ x, i = .ldDtVx x) ∧
    (t.st ≠ s.st → ∃ x, i = .ldStVx x) ∧
    (t.fb ≠ s.fb → i = .cls ∨ ∃ x y n, i = .drw x y n) ∧
    t.keys = s.keys ∧
    (t.mem ≠ s.mem → ∃ x, i = .ldB x ∨ i = .storeRegs x) ∧
    (t.i ≠ s.i → ∃ x nnn, i = .ldI nnn ∨ i = .addI x ∨ i = .ldF x ∨ i = .storeRegs x ∨ i = .loadRegs x) ∧
    t.subnAdvancesPc = s.subnAdvancesPc ∧ t.rnd = s.rnd ∧ t.inputs = s.inputs ∧ t.freeIx = s.freeIx

/-- R23, R27: no instruction but RET reads a stack slot and none reads ST: with them replaced, every instruction does the
same to everything else. -/
def Obligations.UnreadStateDoesNotMatter : Prop :=
  ∀ (i : Instr) (s : State) (slots z : Vector Word 16) (b c : Byte),
    (i ≠ .ret → mapNext (fun t => { t with stack := z }) (exec i { s with stack := slots }) =
      mapNext (fun t => { t with stack := z }) (exec i s)) ∧
    mapNext (fun t => { t with st := c }) (exec i { s with st := b }) =
      mapNext (fun t => { t with st := c }) (exec i s)

/-- R119, R120: an instruction faults exactly under the table's condition for it, with that fault's information; no other
fault and no refusal comes from an instruction. -/
def Obligations.InstructionFaultTable : Prop :=
  ∀ (i : Instr) (s : State), (∀ e, exec i s ≠ .refused e) ∧ ∀ f, exec i s = .fault f ↔
    ((∃ nnn, i = .call nnn) ∧ s.sp = 15 ∧ f = .stackOverflow s.pc s.sp) ∨
    (i = .ret ∧ s.sp = 0 ∧ f = .stackUnderflow s.pc s.sp) ∨
    (∃ x y n, i = .drw x y n ∧ 0 < n ∧ 0xFFF < s.i.toNat + n - 1 ∧
      f = .memoryOutOfRange s.pc (max s.i.toNat 0x1000) .read) ∨
    (∃ x, i = .loadRegs x ∧ 0xFFF < s.i.toNat + x.toNat ∧
      f = .memoryOutOfRange s.pc (max s.i.toNat 0x1000) .read) ∨
    (∃ x, ((i = .ldB x ∧ 0xFFF < s.i.toNat + 2) ∨ (i = .storeRegs x ∧ 0xFFF < s.i.toNat + x.toNat)) ∧
      f = .memoryOutOfRange s.pc (max s.i.toNat 0x1000) .write) ∨
    (∃ x, (i = .ldB x ∨ i = .storeRegs x) ∧ s.i.toNat < 0x50 ∧ f = .glyphRegionWrite s.pc s.i.toNat) ∨
    (∃ x, (i = .skp x ∨ i = .sknp x) ∧ 15 < (s.getV x).toNat ∧ f = .keyIndexOutOfRange s.pc (s.getV x))

/-- R126: no check reads the key states or the timers, so set_key and tick never clear the cause of a fault. -/
def Obligations.KeysAndTicksNeverClearAFault : Prop :=
  ∀ (s : State) (f : Fault), coreStep s = .fault f →
    coreStep (HostOp.apply s .tick) = .fault f ∧
    ∀ k pressed, coreStep (HostOp.apply s (.setKey k pressed)) = .fault f

/-- R30: after a completed step awaiting_key is 1 exactly if it executed Fx0A with no key pressed; it is 0 after reset;
and no instruction reads it. -/
def Obligations.AwaitingKeyMarksTheWait : Prop :=
  State.reset.awaitingKey = false ∧
  (∀ s t : State, step s = .next t →
    (t.awaitingKey = true ↔
      (∃ x, decodeWord s.deliver.fetchWord = .ok (.ldVxK x)) ∧ ∀ k : RegIx, s.deliver.keys[k.toNat] = false)) ∧
  ∀ (i : Instr) (s : State) (a : Bool), exec i { s with awaitingKey := a } = exec i s

/-- Every step from a state that meets the invariant, whatever the host does before it, leaves a state that meets it:
memory stays canonical, the glyphs stay, the active stack slots stay addresses that can be fetched from, S[0] stays
0 and PC never passes 0x10FE. -/
def Obligations.StepKeepsInvariant : Prop :=
  ∀ s t : State, s.Inv → step s = .next t → t.Inv

/-- R79: from a state that meets the invariant, a RET that completes resumes at the address in the popped slot plus 2, a sum
that does not wrap; the slot's address is one that can be fetched from, so PC is even and in 0x202..0x1000. -/
def Obligations.ReturnAddressIsEvenAndInRange : Prop :=
  ∀ s t : State, s.Inv → exec .ret s = .next t →
    pcOk (s.getSlot s.sp) = true ∧ t.pc.toNat = (s.getSlot s.sp).toNat + 2 ∧
    t.pc.toNat ≤ 0x1000 ∧ t.pc.toNat % 2 = 0 ∧ 0x202 ≤ t.pc.toNat
end

