-- ==== Sys2Proof/Laws/Config.lean ====
section
/-! SUPPORT. The parameters' values as simp lemmas, so that arithmetic on them is arithmetic on numerals. -/
namespace Sys2Proof.Config

@[simp] theorem memSize_eq : memSize = 4096 := rfl
@[simp] theorem addrMax_eq : addrMax = 4095 := rfl
@[simp] theorem fetchWidth_eq : fetchWidth = 2 := rfl
@[simp] theorem entry_eq : entry = 512 := rfl
@[simp] theorem glyphBase_eq : glyphBase = 0 := rfl
@[simp] theorem glyphHeight_eq : glyphHeight = 5 := rfl
@[simp] theorem glyphEnd_eq : glyphEnd = 80 := rfl
@[simp] theorem displayW_eq : displayW = 64 := rfl
@[simp] theorem displayH_eq : displayH = 32 := rfl
@[simp] theorem displayCells_eq : displayCells = 2048 := rfl
@[simp] theorem glyphTable_length : glyphTable.length = 80 := rfl

end Sys2Proof.Config
end

