-- ==== Sys2Proof/Laws/Decode.lean ====
section
/-! SUPPORT. The bits and the fields of an encoded word, by format (spec/30_encoding.md R62, R64). -/
namespace Sys2Proof

/-! ## Bits -/

theorem getLsbD_encNnn (op : BitVec 4) (nnn : Word) (i : Nat) :
    (encNnn op nnn).getLsbD i = if i < 12 then nnn.getLsbD i else op.getLsbD (i - 12) := by
  unfold encNnn
  rw [BitVec.getLsbD_append]
  split <;> simp [*]

theorem getLsbD_encXkk (op : BitVec 4) (x : RegIx) (kk : Byte) (i : Nat) :
    (encXkk op x kk).getLsbD i =
      if i < 8 then kk.getLsbD i else if i < 12 then x.getLsbD (i - 8) else op.getLsbD (i - 12) := by
  unfold encXkk
  rw [BitVec.getLsbD_append, BitVec.getLsbD_append]
  by_cases h8 : i < 8
  · rw [if_pos h8, if_pos h8]
  · rw [if_neg h8, if_neg h8]
    by_cases h12 : i < 12
    · rw [if_pos (by omega), if_pos h12]
    · rw [if_neg (by omega), if_neg h12, show i - 8 - 4 = i - 12 by omega]

/-- A format XY word is the format XKK word whose low byte is y and n. -/
theorem encXyn_eq (op : BitVec 4) (x y : RegIx) (n : BitVec 4) : encXyn op x y n = encXkk op x (y ++ n) := by
  unfold encXyn encXkk
  apply BitVec.eq_of_getLsbD_eq; intro i _
  rw [BitVec.getLsbD_append, BitVec.getLsbD_append, BitVec.getLsbD_append (y := (y ++ n : BitVec 8)),
    BitVec.getLsbD_append (x := y)]
  by_cases h4 : i < 4
  · rw [if_pos h4, if_pos (by omega), if_pos h4]
  · by_cases h8 : i < 8
    · rw [if_neg h4, if_pos (by omega), if_pos (by omega), if_neg h4]
    · rw [if_neg h4, if_neg (by omega), if_neg (by omega), show i - 4 - 4 = i - 8 by omega]

/-! ## Fields -/

theorem opOf_encNnn (op : BitVec 4) (nnn : Word) : opOf (encNnn op nnn) = op := by
  apply BitVec.eq_of_getLsbD_eq; intro i hi
  simp [opOf, getLsbD_encNnn, hi]

theorem nnnOf_encNnn (op : BitVec 4) {nnn : Word} (h : nnn.toNat ≤ 0xFFF) : nnnOf (encNnn op nnn) = nnn := by
  apply BitVec.eq_of_getLsbD_eq; intro i hi
  by_cases h12 : i < 12
  · simp only [nnnOf, BitVec.getLsbD_setWidth, BitVec.getLsbD_extractLsb', getLsbD_encNnn]
    simp [h12, hi]
  · have : nnn.getLsbD i = false := by
      rw [BitVec.getLsbD, Nat.testBit_lt_two_pow]
      calc nnn.toNat < 2 ^ 12 := by omega
        _ ≤ 2 ^ i := Nat.pow_le_pow_right (by omega) (by omega)
    simp [nnnOf, h12, this]

theorem opOf_encXkk (op : BitVec 4) (x : RegIx) (kk : Byte) : opOf (encXkk op x kk) = op := by
  apply BitVec.eq_of_getLsbD_eq; intro i hi
  simp [opOf, getLsbD_encXkk, show ¬ 12 + i < 8 by omega, hi]

theorem xOf_encXkk (op : BitVec 4) (x : RegIx) (kk : Byte) : xOf (encXkk op x kk) = x := by
  apply BitVec.eq_of_getLsbD_eq; intro i hi
  simp [xOf, getLsbD_encXkk, show 8 + i < 12 by omega, hi]

theorem kkOf_encXkk (op : BitVec 4) (x : RegIx) (kk : Byte) : kkOf (encXkk op x kk) = kk := by
  apply BitVec.eq_of_getLsbD_eq; intro i hi
  simp [kkOf, getLsbD_encXkk, hi]

theorem opOf_encXyn (op : BitVec 4) (x y : RegIx) (n : BitVec 4) : opOf (encXyn op x y n) = op := by
  rw [encXyn_eq, opOf_encXkk]

theorem xOf_encXyn (op : BitVec 4) (x y : RegIx) (n : BitVec 4) : xOf (encXyn op x y n) = x := by
  rw [encXyn_eq, xOf_encXkk]

theorem yOf_encXyn (op : BitVec 4) (x y : RegIx) (n : BitVec 4) : yOf (encXyn op x y n) = y := by
  apply BitVec.eq_of_getLsbD_eq; intro i hi
  rw [encXyn_eq, yOf, BitVec.getLsbD_extractLsb', getLsbD_encXkk, BitVec.getLsbD_append]
  simp [hi, show 4 + i < 8 by omega]

theorem nOf_encXyn (op : BitVec 4) (x y : RegIx) (n : BitVec 4) : nOf (encXyn op x y n) = n.toNat := by
  unfold nOf; congr 1
  apply BitVec.eq_of_getLsbD_eq; intro i hi
  rw [encXyn_eq, BitVec.getLsbD_extractLsb', getLsbD_encXkk, BitVec.getLsbD_append]
  simp [hi, show i < 8 by omega]

/-- A word is the encoding of its fields, format XKK. -/
theorem encXkk_fields (w : Word) : encXkk (opOf w) (xOf w) (kkOf w) = w := by
  apply BitVec.eq_of_getLsbD_eq; intro i hi
  rw [getLsbD_encXkk]
  unfold opOf xOf kkOf
  simp only [BitVec.getLsbD_extractLsb']
  by_cases h8 : i < 8
  · simp [h8]
  · by_cases h12 : i < 12
    · rw [if_neg h8, if_pos h12, show 8 + (i - 8) = i by omega]; simp; omega
    · rw [if_neg h8, if_neg h12, show 12 + (i - 12) = i by omega]; simp; omega

/-- A word is the encoding of its fields, format NNN. -/
theorem encNnn_fields (w : Word) : encNnn (opOf w) (nnnOf w) = w := by
  apply BitVec.eq_of_getLsbD_eq; intro i hi
  rw [getLsbD_encNnn]
  unfold opOf nnnOf
  simp only [BitVec.getLsbD_extractLsb', BitVec.getLsbD_setWidth]
  by_cases h12 : i < 12
  · simp [h12]; omega
  · rw [if_neg h12, show 12 + (i - 12) = i by omega]; simp; omega

/-- The value of a format XKK word. -/
theorem encXkk_toNat (op : BitVec 4) (x : RegIx) (kk : Byte) :
    (encXkk op x kk).toNat = op.toNat * 4096 + x.toNat * 256 + kk.toNat := by
  unfold encXkk
  rw [BitVec.toNat_append, ← Nat.shiftLeft_add_eq_or_of_lt kk.isLt, Nat.shiftLeft_eq, BitVec.toNat_append,
    ← Nat.shiftLeft_add_eq_or_of_lt x.isLt, Nat.shiftLeft_eq]
  omega

/-- An address field is at most 0xFFF (R63). -/
theorem nnnOf_le (w : Word) : (nnnOf w).toNat ≤ 0xFFF := by
  unfold nnnOf
  rw [BitVec.toNat_setWidth]
  have := (w.extractLsb' 0 12).isLt
  have := Nat.mod_le (w.extractLsb' 0 12).toNat (2 ^ 16)
  omega

/-- A row count is at most 15 (R63). -/
theorem nOf_le (w : Word) : nOf w ≤ 15 := by
  have := (w.extractLsb' 0 4).isLt
  unfold nOf; omega

theorem addrFits_iff {nnn : Word} : addrFits nnn = true ↔ nnn.toNat ≤ 0xFFF := decide_eq_true_iff

theorem countFits_iff {n : Nat} : countFits n = true ↔ n ≤ 15 := decide_eq_true_iff

/-! ## Bytes -/

/-- The two bytes of a word give the word back (20_memory.md R49). -/
theorem wordOfBytes_bytesOfWord (w : Word) : wordOfBytes (w.extractLsb' 8 8) (w.extractLsb' 0 8) = w := by
  unfold wordOfBytes
  apply BitVec.eq_of_getLsbD_eq; intro i hi
  rw [BitVec.getLsbD_append]
  simp only [BitVec.getLsbD_extractLsb']
  by_cases h8 : i < 8
  · simp [h8]
  · rw [if_neg h8, show 8 + (i - 8) = i by omega]; simp; omega

/-- Decoding the bytes of a word is decoding the word. -/
theorem decode_bytesOfWord (w : Word) (rest : List Byte) :
    decode (bytesOfWord w ++ rest) = (decodeWord w).map (fun i => (i, rest)) := by
  simp only [bytesOfWord, List.cons_append, List.nil_append, decode, wordOfBytes_bytesOfWord]
  cases decodeWord w <;> rfl

end Sys2Proof
end

