-- ==== Sys2Proof/Laws/State.lean ====
section
/-!
SUPPORT. What each update of the state does to each field, all true by rfl, so that no later proof unfolds a record update;
and the same for the updates that choose (a skip, SUBN's advance) or repeat (a store of several bytes).
-/
namespace Sys2Proof.Machine


/-! ## writeMem -/

@[simp] theorem State.writeMem_v (s : State) (a : Nat) (b : Byte) : (s.writeMem a b).v = s.v := rfl
@[simp] theorem State.writeMem_i (s : State) (a : Nat) (b : Byte) : (s.writeMem a b).i = s.i := rfl
@[simp] theorem State.writeMem_pc (s : State) (a : Nat) (b : Byte) : (s.writeMem a b).pc = s.pc := rfl
@[simp] theorem State.writeMem_sp (s : State) (a : Nat) (b : Byte) : (s.writeMem a b).sp = s.sp := rfl
@[simp] theorem State.writeMem_stack (s : State) (a : Nat) (b : Byte) : (s.writeMem a b).stack = s.stack := rfl
@[simp] theorem State.writeMem_dt (s : State) (a : Nat) (b : Byte) : (s.writeMem a b).dt = s.dt := rfl
@[simp] theorem State.writeMem_st (s : State) (a : Nat) (b : Byte) : (s.writeMem a b).st = s.st := rfl
@[simp] theorem State.writeMem_fb (s : State) (a : Nat) (b : Byte) : (s.writeMem a b).fb = s.fb := rfl
@[simp] theorem State.writeMem_keys (s : State) (a : Nat) (b : Byte) : (s.writeMem a b).keys = s.keys := rfl
@[simp] theorem State.writeMem_mem (s : State) (a : Nat) (b : Byte) : (s.writeMem a b).mem = memSet s.mem a b := rfl
@[simp] theorem State.writeMem_awaitingKey (s : State) (a : Nat) (b : Byte) : (s.writeMem a b).awaitingKey = s.awaitingKey := rfl
@[simp] theorem State.writeMem_subnAdvancesPc (s : State) (a : Nat) (b : Byte) : (s.writeMem a b).subnAdvancesPc = s.subnAdvancesPc := rfl
@[simp] theorem State.writeMem_rnd (s : State) (a : Nat) (b : Byte) : (s.writeMem a b).rnd = s.rnd := rfl
@[simp] theorem State.writeMem_inputs (s : State) (a : Nat) (b : Byte) : (s.writeMem a b).inputs = s.inputs := rfl
@[simp] theorem State.writeMem_freeIx (s : State) (a : Nat) (b : Byte) : (s.writeMem a b).freeIx = s.freeIx := rfl

/-! ## setV -/

@[simp] theorem State.setV_v (s : State) (x : RegIx) (b : Byte) : (s.setV x b).v = s.v.set x.toNat b := rfl
@[simp] theorem State.setV_i (s : State) (x : RegIx) (b : Byte) : (s.setV x b).i = s.i := rfl
@[simp] theorem State.setV_pc (s : State) (x : RegIx) (b : Byte) : (s.setV x b).pc = s.pc := rfl
@[simp] theorem State.setV_sp (s : State) (x : RegIx) (b : Byte) : (s.setV x b).sp = s.sp := rfl
@[simp] theorem State.setV_stack (s : State) (x : RegIx) (b : Byte) : (s.setV x b).stack = s.stack := rfl
@[simp] theorem State.setV_dt (s : State) (x : RegIx) (b : Byte) : (s.setV x b).dt = s.dt := rfl
@[simp] theorem State.setV_st (s : State) (x : RegIx) (b : Byte) : (s.setV x b).st = s.st := rfl
@[simp] theorem State.setV_fb (s : State) (x : RegIx) (b : Byte) : (s.setV x b).fb = s.fb := rfl
@[simp] theorem State.setV_keys (s : State) (x : RegIx) (b : Byte) : (s.setV x b).keys = s.keys := rfl
@[simp] theorem State.setV_mem (s : State) (x : RegIx) (b : Byte) : (s.setV x b).mem = s.mem := rfl
@[simp] theorem State.setV_awaitingKey (s : State) (x : RegIx) (b : Byte) : (s.setV x b).awaitingKey = s.awaitingKey := rfl
@[simp] theorem State.setV_subnAdvancesPc (s : State) (x : RegIx) (b : Byte) : (s.setV x b).subnAdvancesPc = s.subnAdvancesPc := rfl
@[simp] theorem State.setV_rnd (s : State) (x : RegIx) (b : Byte) : (s.setV x b).rnd = s.rnd := rfl
@[simp] theorem State.setV_inputs (s : State) (x : RegIx) (b : Byte) : (s.setV x b).inputs = s.inputs := rfl
@[simp] theorem State.setV_freeIx (s : State) (x : RegIx) (b : Byte) : (s.setV x b).freeIx = s.freeIx := rfl

/-! ## setI -/

@[simp] theorem State.setI_v (s : State) (w : Word) : (s.setI w).v = s.v := rfl
@[simp] theorem State.setI_i (s : State) (w : Word) : (s.setI w).i = w := rfl
@[simp] theorem State.setI_pc (s : State) (w : Word) : (s.setI w).pc = s.pc := rfl
@[simp] theorem State.setI_sp (s : State) (w : Word) : (s.setI w).sp = s.sp := rfl
@[simp] theorem State.setI_stack (s : State) (w : Word) : (s.setI w).stack = s.stack := rfl
@[simp] theorem State.setI_dt (s : State) (w : Word) : (s.setI w).dt = s.dt := rfl
@[simp] theorem State.setI_st (s : State) (w : Word) : (s.setI w).st = s.st := rfl
@[simp] theorem State.setI_fb (s : State) (w : Word) : (s.setI w).fb = s.fb := rfl
@[simp] theorem State.setI_keys (s : State) (w : Word) : (s.setI w).keys = s.keys := rfl
@[simp] theorem State.setI_mem (s : State) (w : Word) : (s.setI w).mem = s.mem := rfl
@[simp] theorem State.setI_awaitingKey (s : State) (w : Word) : (s.setI w).awaitingKey = s.awaitingKey := rfl
@[simp] theorem State.setI_subnAdvancesPc (s : State) (w : Word) : (s.setI w).subnAdvancesPc = s.subnAdvancesPc := rfl
@[simp] theorem State.setI_rnd (s : State) (w : Word) : (s.setI w).rnd = s.rnd := rfl
@[simp] theorem State.setI_inputs (s : State) (w : Word) : (s.setI w).inputs = s.inputs := rfl
@[simp] theorem State.setI_freeIx (s : State) (w : Word) : (s.setI w).freeIx = s.freeIx := rfl

/-! ## setDt -/

@[simp] theorem State.setDt_v (s : State) (b : Byte) : (s.setDt b).v = s.v := rfl
@[simp] theorem State.setDt_i (s : State) (b : Byte) : (s.setDt b).i = s.i := rfl
@[simp] theorem State.setDt_pc (s : State) (b : Byte) : (s.setDt b).pc = s.pc := rfl
@[simp] theorem State.setDt_sp (s : State) (b : Byte) : (s.setDt b).sp = s.sp := rfl
@[simp] theorem State.setDt_stack (s : State) (b : Byte) : (s.setDt b).stack = s.stack := rfl
@[simp] theorem State.setDt_dt (s : State) (b : Byte) : (s.setDt b).dt = b := rfl
@[simp] theorem State.setDt_st (s : State) (b : Byte) : (s.setDt b).st = s.st := rfl
@[simp] theorem State.setDt_fb (s : State) (b : Byte) : (s.setDt b).fb = s.fb := rfl
@[simp] theorem State.setDt_keys (s : State) (b : Byte) : (s.setDt b).keys = s.keys := rfl
@[simp] theorem State.setDt_mem (s : State) (b : Byte) : (s.setDt b).mem = s.mem := rfl
@[simp] theorem State.setDt_awaitingKey (s : State) (b : Byte) : (s.setDt b).awaitingKey = s.awaitingKey := rfl
@[simp] theorem State.setDt_subnAdvancesPc (s : State) (b : Byte) : (s.setDt b).subnAdvancesPc = s.subnAdvancesPc := rfl
@[simp] theorem State.setDt_rnd (s : State) (b : Byte) : (s.setDt b).rnd = s.rnd := rfl
@[simp] theorem State.setDt_inputs (s : State) (b : Byte) : (s.setDt b).inputs = s.inputs := rfl
@[simp] theorem State.setDt_freeIx (s : State) (b : Byte) : (s.setDt b).freeIx = s.freeIx := rfl

/-! ## setSt -/

@[simp] theorem State.setSt_v (s : State) (b : Byte) : (s.setSt b).v = s.v := rfl
@[simp] theorem State.setSt_i (s : State) (b : Byte) : (s.setSt b).i = s.i := rfl
@[simp] theorem State.setSt_pc (s : State) (b : Byte) : (s.setSt b).pc = s.pc := rfl
@[simp] theorem State.setSt_sp (s : State) (b : Byte) : (s.setSt b).sp = s.sp := rfl
@[simp] theorem State.setSt_stack (s : State) (b : Byte) : (s.setSt b).stack = s.stack := rfl
@[simp] theorem State.setSt_dt (s : State) (b : Byte) : (s.setSt b).dt = s.dt := rfl
@[simp] theorem State.setSt_st (s : State) (b : Byte) : (s.setSt b).st = b := rfl
@[simp] theorem State.setSt_fb (s : State) (b : Byte) : (s.setSt b).fb = s.fb := rfl
@[simp] theorem State.setSt_keys (s : State) (b : Byte) : (s.setSt b).keys = s.keys := rfl
@[simp] theorem State.setSt_mem (s : State) (b : Byte) : (s.setSt b).mem = s.mem := rfl
@[simp] theorem State.setSt_awaitingKey (s : State) (b : Byte) : (s.setSt b).awaitingKey = s.awaitingKey := rfl
@[simp] theorem State.setSt_subnAdvancesPc (s : State) (b : Byte) : (s.setSt b).subnAdvancesPc = s.subnAdvancesPc := rfl
@[simp] theorem State.setSt_rnd (s : State) (b : Byte) : (s.setSt b).rnd = s.rnd := rfl
@[simp] theorem State.setSt_inputs (s : State) (b : Byte) : (s.setSt b).inputs = s.inputs := rfl
@[simp] theorem State.setSt_freeIx (s : State) (b : Byte) : (s.setSt b).freeIx = s.freeIx := rfl

/-! ## finish -/

@[simp] theorem State.finish_v (s : State) (w : Word) : (s.finish w).v = s.v := rfl
@[simp] theorem State.finish_i (s : State) (w : Word) : (s.finish w).i = s.i := rfl
@[simp] theorem State.finish_pc (s : State) (w : Word) : (s.finish w).pc = w := rfl
@[simp] theorem State.finish_sp (s : State) (w : Word) : (s.finish w).sp = s.sp := rfl
@[simp] theorem State.finish_stack (s : State) (w : Word) : (s.finish w).stack = s.stack := rfl
@[simp] theorem State.finish_dt (s : State) (w : Word) : (s.finish w).dt = s.dt := rfl
@[simp] theorem State.finish_st (s : State) (w : Word) : (s.finish w).st = s.st := rfl
@[simp] theorem State.finish_fb (s : State) (w : Word) : (s.finish w).fb = s.fb := rfl
@[simp] theorem State.finish_keys (s : State) (w : Word) : (s.finish w).keys = s.keys := rfl
@[simp] theorem State.finish_mem (s : State) (w : Word) : (s.finish w).mem = s.mem := rfl
@[simp] theorem State.finish_awaitingKey (s : State) (w : Word) : (s.finish w).awaitingKey = false := rfl
@[simp] theorem State.finish_subnAdvancesPc (s : State) (w : Word) : (s.finish w).subnAdvancesPc = s.subnAdvancesPc := rfl
@[simp] theorem State.finish_rnd (s : State) (w : Word) : (s.finish w).rnd = s.rnd := rfl
@[simp] theorem State.finish_inputs (s : State) (w : Word) : (s.finish w).inputs = s.inputs := rfl
@[simp] theorem State.finish_freeIx (s : State) (w : Word) : (s.finish w).freeIx = s.freeIx := rfl

/-! ## advance -/

@[simp] theorem State.advance_v (s : State) : (s.advance).v = s.v := rfl
@[simp] theorem State.advance_i (s : State) : (s.advance).i = s.i := rfl
@[simp] theorem State.advance_pc (s : State) : (s.advance).pc = s.pc + 2 := rfl
@[simp] theorem State.advance_sp (s : State) : (s.advance).sp = s.sp := rfl
@[simp] theorem State.advance_stack (s : State) : (s.advance).stack = s.stack := rfl
@[simp] theorem State.advance_dt (s : State) : (s.advance).dt = s.dt := rfl
@[simp] theorem State.advance_st (s : State) : (s.advance).st = s.st := rfl
@[simp] theorem State.advance_fb (s : State) : (s.advance).fb = s.fb := rfl
@[simp] theorem State.advance_keys (s : State) : (s.advance).keys = s.keys := rfl
@[simp] theorem State.advance_mem (s : State) : (s.advance).mem = s.mem := rfl
@[simp] theorem State.advance_awaitingKey (s : State) : (s.advance).awaitingKey = false := rfl
@[simp] theorem State.advance_subnAdvancesPc (s : State) : (s.advance).subnAdvancesPc = s.subnAdvancesPc := rfl
@[simp] theorem State.advance_rnd (s : State) : (s.advance).rnd = s.rnd := rfl
@[simp] theorem State.advance_inputs (s : State) : (s.advance).inputs = s.inputs := rfl
@[simp] theorem State.advance_freeIx (s : State) : (s.advance).freeIx = s.freeIx := rfl

/-! ## awaitKey -/

@[simp] theorem State.awaitKey_v (s : State) : (s.awaitKey).v = s.v := rfl
@[simp] theorem State.awaitKey_i (s : State) : (s.awaitKey).i = s.i := rfl
@[simp] theorem State.awaitKey_pc (s : State) : (s.awaitKey).pc = s.pc := rfl
@[simp] theorem State.awaitKey_sp (s : State) : (s.awaitKey).sp = s.sp := rfl
@[simp] theorem State.awaitKey_stack (s : State) : (s.awaitKey).stack = s.stack := rfl
@[simp] theorem State.awaitKey_dt (s : State) : (s.awaitKey).dt = s.dt := rfl
@[simp] theorem State.awaitKey_st (s : State) : (s.awaitKey).st = s.st := rfl
@[simp] theorem State.awaitKey_fb (s : State) : (s.awaitKey).fb = s.fb := rfl
@[simp] theorem State.awaitKey_keys (s : State) : (s.awaitKey).keys = s.keys := rfl
@[simp] theorem State.awaitKey_mem (s : State) : (s.awaitKey).mem = s.mem := rfl
@[simp] theorem State.awaitKey_awaitingKey (s : State) : (s.awaitKey).awaitingKey = true := rfl
@[simp] theorem State.awaitKey_subnAdvancesPc (s : State) : (s.awaitKey).subnAdvancesPc = s.subnAdvancesPc := rfl
@[simp] theorem State.awaitKey_rnd (s : State) : (s.awaitKey).rnd = s.rnd := rfl
@[simp] theorem State.awaitKey_inputs (s : State) : (s.awaitKey).inputs = s.inputs := rfl
@[simp] theorem State.awaitKey_freeIx (s : State) : (s.awaitKey).freeIx = s.freeIx := rfl

/-! ## push -/

@[simp] theorem State.push_v (s : State) (a : Word) : (s.push a).v = s.v := rfl
@[simp] theorem State.push_i (s : State) (a : Word) : (s.push a).i = s.i := rfl
@[simp] theorem State.push_pc (s : State) (a : Word) : (s.push a).pc = s.pc := rfl
@[simp] theorem State.push_sp (s : State) (a : Word) : (s.push a).sp = s.sp + 1 := rfl
@[simp] theorem State.push_stack (s : State) (a : Word) : (s.push a).stack = s.stack.set (s.sp + 1).toNat a := rfl
@[simp] theorem State.push_dt (s : State) (a : Word) : (s.push a).dt = s.dt := rfl
@[simp] theorem State.push_st (s : State) (a : Word) : (s.push a).st = s.st := rfl
@[simp] theorem State.push_fb (s : State) (a : Word) : (s.push a).fb = s.fb := rfl
@[simp] theorem State.push_keys (s : State) (a : Word) : (s.push a).keys = s.keys := rfl
@[simp] theorem State.push_mem (s : State) (a : Word) : (s.push a).mem = s.mem := rfl
@[simp] theorem State.push_awaitingKey (s : State) (a : Word) : (s.push a).awaitingKey = s.awaitingKey := rfl
@[simp] theorem State.push_subnAdvancesPc (s : State) (a : Word) : (s.push a).subnAdvancesPc = s.subnAdvancesPc := rfl
@[simp] theorem State.push_rnd (s : State) (a : Word) : (s.push a).rnd = s.rnd := rfl
@[simp] theorem State.push_inputs (s : State) (a : Word) : (s.push a).inputs = s.inputs := rfl
@[simp] theorem State.push_freeIx (s : State) (a : Word) : (s.push a).freeIx = s.freeIx := rfl

/-! ## pop -/

@[simp] theorem State.pop_v (s : State) : (s.pop).v = s.v := rfl
@[simp] theorem State.pop_i (s : State) : (s.pop).i = s.i := rfl
@[simp] theorem State.pop_pc (s : State) : (s.pop).pc = s.pc := rfl
@[simp] theorem State.pop_sp (s : State) : (s.pop).sp = s.sp - 1 := rfl
@[simp] theorem State.pop_stack (s : State) : (s.pop).stack = s.stack := rfl
@[simp] theorem State.pop_dt (s : State) : (s.pop).dt = s.dt := rfl
@[simp] theorem State.pop_st (s : State) : (s.pop).st = s.st := rfl
@[simp] theorem State.pop_fb (s : State) : (s.pop).fb = s.fb := rfl
@[simp] theorem State.pop_keys (s : State) : (s.pop).keys = s.keys := rfl
@[simp] theorem State.pop_mem (s : State) : (s.pop).mem = s.mem := rfl
@[simp] theorem State.pop_awaitingKey (s : State) : (s.pop).awaitingKey = s.awaitingKey := rfl
@[simp] theorem State.pop_subnAdvancesPc (s : State) : (s.pop).subnAdvancesPc = s.subnAdvancesPc := rfl
@[simp] theorem State.pop_rnd (s : State) : (s.pop).rnd = s.rnd := rfl
@[simp] theorem State.pop_inputs (s : State) : (s.pop).inputs = s.inputs := rfl
@[simp] theorem State.pop_freeIx (s : State) : (s.pop).freeIx = s.freeIx := rfl

/-! ## loadBlock -/

@[simp] theorem State.loadBlock_i (s : State) (x : RegIx) (base : Nat) : (s.loadBlock x base).i = s.i := rfl
@[simp] theorem State.loadBlock_pc (s : State) (x : RegIx) (base : Nat) : (s.loadBlock x base).pc = s.pc := rfl
@[simp] theorem State.loadBlock_sp (s : State) (x : RegIx) (base : Nat) : (s.loadBlock x base).sp = s.sp := rfl
@[simp] theorem State.loadBlock_stack (s : State) (x : RegIx) (base : Nat) : (s.loadBlock x base).stack = s.stack := rfl
@[simp] theorem State.loadBlock_dt (s : State) (x : RegIx) (base : Nat) : (s.loadBlock x base).dt = s.dt := rfl
@[simp] theorem State.loadBlock_st (s : State) (x : RegIx) (base : Nat) : (s.loadBlock x base).st = s.st := rfl
@[simp] theorem State.loadBlock_fb (s : State) (x : RegIx) (base : Nat) : (s.loadBlock x base).fb = s.fb := rfl
@[simp] theorem State.loadBlock_keys (s : State) (x : RegIx) (base : Nat) : (s.loadBlock x base).keys = s.keys := rfl
@[simp] theorem State.loadBlock_mem (s : State) (x : RegIx) (base : Nat) : (s.loadBlock x base).mem = s.mem := rfl
@[simp] theorem State.loadBlock_awaitingKey (s : State) (x : RegIx) (base : Nat) : (s.loadBlock x base).awaitingKey = s.awaitingKey := rfl
@[simp] theorem State.loadBlock_subnAdvancesPc (s : State) (x : RegIx) (base : Nat) : (s.loadBlock x base).subnAdvancesPc = s.subnAdvancesPc := rfl
@[simp] theorem State.loadBlock_rnd (s : State) (x : RegIx) (base : Nat) : (s.loadBlock x base).rnd = s.rnd := rfl
@[simp] theorem State.loadBlock_inputs (s : State) (x : RegIx) (base : Nat) : (s.loadBlock x base).inputs = s.inputs := rfl
@[simp] theorem State.loadBlock_freeIx (s : State) (x : RegIx) (base : Nat) : (s.loadBlock x base).freeIx = s.freeIx := rfl

/-! ## setFlagThenV -/

@[simp] theorem State.setFlagThenV_v (s : State) (f : Byte) (x : RegIx) (b : Byte) : (s.setFlagThenV f x b).v = (s.v.set vf.toNat f).set x.toNat b := rfl
@[simp] theorem State.setFlagThenV_i (s : State) (f : Byte) (x : RegIx) (b : Byte) : (s.setFlagThenV f x b).i = s.i := rfl
@[simp] theorem State.setFlagThenV_pc (s : State) (f : Byte) (x : RegIx) (b : Byte) : (s.setFlagThenV f x b).pc = s.pc := rfl
@[simp] theorem State.setFlagThenV_sp (s : State) (f : Byte) (x : RegIx) (b : Byte) : (s.setFlagThenV f x b).sp = s.sp := rfl
@[simp] theorem State.setFlagThenV_stack (s : State) (f : Byte) (x : RegIx) (b : Byte) : (s.setFlagThenV f x b).stack = s.stack := rfl
@[simp] theorem State.setFlagThenV_dt (s : State) (f : Byte) (x : RegIx) (b : Byte) : (s.setFlagThenV f x b).dt = s.dt := rfl
@[simp] theorem State.setFlagThenV_st (s : State) (f : Byte) (x : RegIx) (b : Byte) : (s.setFlagThenV f x b).st = s.st := rfl
@[simp] theorem State.setFlagThenV_fb (s : State) (f : Byte) (x : RegIx) (b : Byte) : (s.setFlagThenV f x b).fb = s.fb := rfl
@[simp] theorem State.setFlagThenV_keys (s : State) (f : Byte) (x : RegIx) (b : Byte) : (s.setFlagThenV f x b).keys = s.keys := rfl
@[simp] theorem State.setFlagThenV_mem (s : State) (f : Byte) (x : RegIx) (b : Byte) : (s.setFlagThenV f x b).mem = s.mem := rfl
@[simp] theorem State.setFlagThenV_awaitingKey (s : State) (f : Byte) (x : RegIx) (b : Byte) : (s.setFlagThenV f x b).awaitingKey = s.awaitingKey := rfl
@[simp] theorem State.setFlagThenV_subnAdvancesPc (s : State) (f : Byte) (x : RegIx) (b : Byte) : (s.setFlagThenV f x b).subnAdvancesPc = s.subnAdvancesPc := rfl
@[simp] theorem State.setFlagThenV_rnd (s : State) (f : Byte) (x : RegIx) (b : Byte) : (s.setFlagThenV f x b).rnd = s.rnd := rfl
@[simp] theorem State.setFlagThenV_inputs (s : State) (f : Byte) (x : RegIx) (b : Byte) : (s.setFlagThenV f x b).inputs = s.inputs := rfl
@[simp] theorem State.setFlagThenV_freeIx (s : State) (f : Byte) (x : RegIx) (b : Byte) : (s.setFlagThenV f x b).freeIx = s.freeIx := rfl

/-! ## tick -/

@[simp] theorem State.tick_v (s : State) : (s.tick).v = s.v := rfl
@[simp] theorem State.tick_i (s : State) : (s.tick).i = s.i := rfl
@[simp] theorem State.tick_pc (s : State) : (s.tick).pc = s.pc := rfl
@[simp] theorem State.tick_sp (s : State) : (s.tick).sp = s.sp := rfl
@[simp] theorem State.tick_stack (s : State) : (s.tick).stack = s.stack := rfl
@[simp] theorem State.tick_dt (s : State) : (s.tick).dt = countDown s.dt := rfl
@[simp] theorem State.tick_st (s : State) : (s.tick).st = countDown s.st := rfl
@[simp] theorem State.tick_fb (s : State) : (s.tick).fb = s.fb := rfl
@[simp] theorem State.tick_keys (s : State) : (s.tick).keys = s.keys := rfl
@[simp] theorem State.tick_mem (s : State) : (s.tick).mem = s.mem := rfl
@[simp] theorem State.tick_awaitingKey (s : State) : (s.tick).awaitingKey = s.awaitingKey := rfl
@[simp] theorem State.tick_subnAdvancesPc (s : State) : (s.tick).subnAdvancesPc = s.subnAdvancesPc := rfl
@[simp] theorem State.tick_rnd (s : State) : (s.tick).rnd = s.rnd := rfl
@[simp] theorem State.tick_inputs (s : State) : (s.tick).inputs = s.inputs := rfl
@[simp] theorem State.tick_freeIx (s : State) : (s.tick).freeIx = s.freeIx := rfl

/-! ## skipIf, advanceSubn: one field chosen, the rest as finish leaves them -/

@[simp] theorem State.skipIf_v (s : State) (c : Bool) : (s.skipIf c).v = s.v := by cases c <;> rfl
@[simp] theorem State.advanceSubn_v (s : State) : s.advanceSubn.v = s.v := by
  unfold State.advanceSubn; split <;> rfl
@[simp] theorem State.skipIf_i (s : State) (c : Bool) : (s.skipIf c).i = s.i := by cases c <;> rfl
@[simp] theorem State.advanceSubn_i (s : State) : s.advanceSubn.i = s.i := by
  unfold State.advanceSubn; split <;> rfl
@[simp] theorem State.skipIf_pc (s : State) (c : Bool) :
    (s.skipIf c).pc = if c then s.pc + 4 else s.pc + 2 := by cases c <;> rfl
@[simp] theorem State.advanceSubn_pc (s : State) :
    s.advanceSubn.pc = if s.subnAdvancesPc then s.pc + 2 else s.pc := by
  unfold State.advanceSubn; split <;> rfl
@[simp] theorem State.skipIf_sp (s : State) (c : Bool) : (s.skipIf c).sp = s.sp := by cases c <;> rfl
@[simp] theorem State.advanceSubn_sp (s : State) : s.advanceSubn.sp = s.sp := by
  unfold State.advanceSubn; split <;> rfl
@[simp] theorem State.skipIf_stack (s : State) (c : Bool) : (s.skipIf c).stack = s.stack := by cases c <;> rfl
@[simp] theorem State.advanceSubn_stack (s : State) : s.advanceSubn.stack = s.stack := by
  unfold State.advanceSubn; split <;> rfl
@[simp] theorem State.skipIf_dt (s : State) (c : Bool) : (s.skipIf c).dt = s.dt := by cases c <;> rfl
@[simp] theorem State.advanceSubn_dt (s : State) : s.advanceSubn.dt = s.dt := by
  unfold State.advanceSubn; split <;> rfl
@[simp] theorem State.skipIf_st (s : State) (c : Bool) : (s.skipIf c).st = s.st := by cases c <;> rfl
@[simp] theorem State.advanceSubn_st (s : State) : s.advanceSubn.st = s.st := by
  unfold State.advanceSubn; split <;> rfl
@[simp] theorem State.skipIf_fb (s : State) (c : Bool) : (s.skipIf c).fb = s.fb := by cases c <;> rfl
@[simp] theorem State.advanceSubn_fb (s : State) : s.advanceSubn.fb = s.fb := by
  unfold State.advanceSubn; split <;> rfl
@[simp] theorem State.skipIf_keys (s : State) (c : Bool) : (s.skipIf c).keys = s.keys := by cases c <;> rfl
@[simp] theorem State.advanceSubn_keys (s : State) : s.advanceSubn.keys = s.keys := by
  unfold State.advanceSubn; split <;> rfl
@[simp] theorem State.skipIf_mem (s : State) (c : Bool) : (s.skipIf c).mem = s.mem := by cases c <;> rfl
@[simp] theorem State.advanceSubn_mem (s : State) : s.advanceSubn.mem = s.mem := by
  unfold State.advanceSubn; split <;> rfl
@[simp] theorem State.skipIf_awaitingKey (s : State) (c : Bool) : (s.skipIf c).awaitingKey = false := by cases c <;> rfl
@[simp] theorem State.advanceSubn_awaitingKey (s : State) : s.advanceSubn.awaitingKey = false := by
  unfold State.advanceSubn; split <;> rfl
@[simp] theorem State.skipIf_subnAdvancesPc (s : State) (c : Bool) : (s.skipIf c).subnAdvancesPc = s.subnAdvancesPc := by cases c <;> rfl
@[simp] theorem State.advanceSubn_subnAdvancesPc (s : State) : s.advanceSubn.subnAdvancesPc = s.subnAdvancesPc := by
  unfold State.advanceSubn; split <;> rfl
@[simp] theorem State.skipIf_rnd (s : State) (c : Bool) : (s.skipIf c).rnd = s.rnd := by cases c <;> rfl
@[simp] theorem State.advanceSubn_rnd (s : State) : s.advanceSubn.rnd = s.rnd := by
  unfold State.advanceSubn; split <;> rfl
@[simp] theorem State.skipIf_inputs (s : State) (c : Bool) : (s.skipIf c).inputs = s.inputs := by cases c <;> rfl
@[simp] theorem State.advanceSubn_inputs (s : State) : s.advanceSubn.inputs = s.inputs := by
  unfold State.advanceSubn; split <;> rfl
@[simp] theorem State.skipIf_freeIx (s : State) (c : Bool) : (s.skipIf c).freeIx = s.freeIx := by cases c <;> rfl
@[simp] theorem State.advanceSubn_freeIx (s : State) : s.advanceSubn.freeIx = s.freeIx := by
  unfold State.advanceSubn; split <;> rfl

/-! ## writeBytes: only memory -/

@[simp] theorem State.writeBytes_v (s : State) (base : Nat) (l : List Byte) : (s.writeBytes base l).v = s.v := by
  induction l generalizing s base with
  | nil => rfl
  | cons b l ih => exact ih _ _
@[simp] theorem State.writeBytes_i (s : State) (base : Nat) (l : List Byte) : (s.writeBytes base l).i = s.i := by
  induction l generalizing s base with
  | nil => rfl
  | cons b l ih => exact ih _ _
@[simp] theorem State.writeBytes_pc (s : State) (base : Nat) (l : List Byte) : (s.writeBytes base l).pc = s.pc := by
  induction l generalizing s base with
  | nil => rfl
  | cons b l ih => exact ih _ _
@[simp] theorem State.writeBytes_sp (s : State) (base : Nat) (l : List Byte) : (s.writeBytes base l).sp = s.sp := by
  induction l generalizing s base with
  | nil => rfl
  | cons b l ih => exact ih _ _
@[simp] theorem State.writeBytes_stack (s : State) (base : Nat) (l : List Byte) : (s.writeBytes base l).stack = s.stack := by
  induction l generalizing s base with
  | nil => rfl
  | cons b l ih => exact ih _ _
@[simp] theorem State.writeBytes_dt (s : State) (base : Nat) (l : List Byte) : (s.writeBytes base l).dt = s.dt := by
  induction l generalizing s base with
  | nil => rfl
  | cons b l ih => exact ih _ _
@[simp] theorem State.writeBytes_st (s : State) (base : Nat) (l : List Byte) : (s.writeBytes base l).st = s.st := by
  induction l generalizing s base with
  | nil => rfl
  | cons b l ih => exact ih _ _
@[simp] theorem State.writeBytes_fb (s : State) (base : Nat) (l : List Byte) : (s.writeBytes base l).fb = s.fb := by
  induction l generalizing s base with
  | nil => rfl
  | cons b l ih => exact ih _ _
@[simp] theorem State.writeBytes_keys (s : State) (base : Nat) (l : List Byte) : (s.writeBytes base l).keys = s.keys := by
  induction l generalizing s base with
  | nil => rfl
  | cons b l ih => exact ih _ _
@[simp] theorem State.writeBytes_awaitingKey (s : State) (base : Nat) (l : List Byte) : (s.writeBytes base l).awaitingKey = s.awaitingKey := by
  induction l generalizing s base with
  | nil => rfl
  | cons b l ih => exact ih _ _
@[simp] theorem State.writeBytes_subnAdvancesPc (s : State) (base : Nat) (l : List Byte) : (s.writeBytes base l).subnAdvancesPc = s.subnAdvancesPc := by
  induction l generalizing s base with
  | nil => rfl
  | cons b l ih => exact ih _ _
@[simp] theorem State.writeBytes_rnd (s : State) (base : Nat) (l : List Byte) : (s.writeBytes base l).rnd = s.rnd := by
  induction l generalizing s base with
  | nil => rfl
  | cons b l ih => exact ih _ _
@[simp] theorem State.writeBytes_inputs (s : State) (base : Nat) (l : List Byte) : (s.writeBytes base l).inputs = s.inputs := by
  induction l generalizing s base with
  | nil => rfl
  | cons b l ih => exact ih _ _
@[simp] theorem State.writeBytes_freeIx (s : State) (base : Nat) (l : List Byte) : (s.writeBytes base l).freeIx = s.freeIx := by
  induction l generalizing s base with
  | nil => rfl
  | cons b l ih => exact ih _ _

end Sys2Proof.Machine
end

