-- ==== Sys2Proof/Laws/Memory.lean ====
section
/-!
SUPPORT. Memory: a read after a write, the canonical form, blocks of bytes, and the checks of a block of addresses.
-/
namespace Sys2Proof.Machine

/-! ## One byte -/

theorem memGet_filter_ne (m : List Host.Cell) {a k : Nat} (h : a ≠ k) :
    memGet (m.filter (fun c => c.1 ≠ k)) a = memGet m a := by
  induction m with
  | nil => rfl
  | cons c m ih =>
    by_cases hc : c.1 = k
    · simp [memGet, hc, h] at *; exact ih
    · simp [memGet, hc] at *; rw [ih]

theorem memGet_filter_self (m : List Host.Cell) (a : Nat) :
    memGet (m.filter (fun c => c.1 ≠ a)) a = blankByte a := by
  induction m with
  | nil => rfl
  | cons c m ih =>
    by_cases hc : c.1 = a
    · simp [hc] at *; exact ih
    · simp [memGet, hc, Ne.symm hc] at *; exact ih

theorem memGet_memInsert_ne (m : List Host.Cell) (c : Host.Cell) {a : Nat} (h : a ≠ c.1) :
    memGet (memInsert c m) a = memGet m a := by
  induction m with
  | nil => simp [memInsert, memGet, h]
  | cons d m ih => unfold memInsert; split <;> simp [memGet, h, ih]

theorem memGet_memInsert_self (m : List Host.Cell) (c : Host.Cell) (h : ∀ d ∈ m, d.1 ≠ c.1) :
    memGet (memInsert c m) c.1 = c.2 := by
  induction m with
  | nil => simp [memInsert, memGet]
  | cons d m ih =>
    unfold memInsert
    split
    · simp [memGet]
    · simp only [memGet, (h d (by simp)).symm, if_false]
      exact ih (fun e he => h e (by simp [he]))

/-- A read after a write to the same place gives the value written; every other place is left alone. -/
theorem memGet_memSet (m : List Host.Cell) (a k : Nat) (b : Byte) :
    memGet (memSet m a b) k = if k = a then b else memGet m k := by
  unfold memSet
  by_cases hk : k = a <;> by_cases hb : b = blankByte a <;> simp only [hk, hb, if_true, if_false]
  · exact memGet_filter_self m a
  · exact memGet_memInsert_self _ (a, b) (fun d hd => by simpa using (List.mem_filter.1 hd).2)
  · exact memGet_filter_ne m hk
  · rw [memGet_memInsert_ne _ _ hk, memGet_filter_ne m hk]

@[simp] theorem State.readMem_writeMem (s : State) (a k : Nat) (b : Byte) :
    (s.writeMem a b).readMem k = if k = a then b else s.readMem k := memGet_memSet s.mem a k b

/-- Memory is read through the field mem alone. -/
theorem State.readMem_congr {s t : State} (h : t.mem = s.mem) (a : Nat) : t.readMem a = s.readMem a := by
  simp [State.readMem, h]

/-! ## The canonical form -/

theorem mem_memInsert {c d : Host.Cell} {m : List Host.Cell} : d ∈ memInsert c m ↔ d = c ∨ d ∈ m := by
  induction m with
  | nil => simp [memInsert]
  | cons e m ih => unfold memInsert; split <;> simp [ih, or_left_comm]

theorem pairwise_memInsert (c : Host.Cell) {m : List Host.Cell} (hm : m.Pairwise (fun d e => d.1 < e.1))
    (hc : ∀ d ∈ m, d.1 ≠ c.1) : (memInsert c m).Pairwise (fun d e => d.1 < e.1) := by
  induction m with
  | nil => simp [memInsert]
  | cons e m ih =>
    obtain ⟨he, hm⟩ := List.pairwise_cons.1 hm
    have hne := hc e (by simp)
    unfold memInsert
    split
    · next hlt =>
      refine List.pairwise_cons.2 ⟨fun d hd => ?_, List.pairwise_cons.2 ⟨he, hm⟩⟩
      rcases List.mem_cons.1 hd with rfl | hd
      · exact hlt
      · exact hlt.trans (he d hd)
    · next hlt =>
      refine List.pairwise_cons.2 ⟨fun d hd => ?_, ih hm (fun d hd => hc d (by simp [hd]))⟩
      rcases mem_memInsert.1 hd with rfl | hd
      · omega
      · exact he d hd

/-- A store inside memory keeps the canonical form. -/
theorem memWf_memSet {m : List Host.Cell} (h : memWf m) {a : Nat} (ha : a ≤ Config.addrMax) (b : Byte) :
    memWf (memSet m a b) := by
  have hrest : (m.filter (fun c => c.1 ≠ a)).Pairwise (fun d e => d.1 < e.1) := h.1.filter _
  unfold memSet
  by_cases hb : b = blankByte a
  · simp only [hb, if_true]
    exact ⟨hrest, fun c hc => h.2 c (List.mem_filter.1 hc).1⟩
  · simp only [hb, if_false]
    refine ⟨pairwise_memInsert _ hrest (fun d hd => by simpa using (List.mem_filter.1 hd).2), fun c hc => ?_⟩
    rcases mem_memInsert.1 hc with rfl | hc
    · exact ⟨ha, hb⟩
    · exact h.2 c (List.mem_filter.1 hc).1

theorem memWf_nil : memWf [] := ⟨List.Pairwise.nil, by simp⟩

/-- A store of several bytes inside memory keeps the canonical form. -/
theorem memWf_writeBytes {s : State} (h : memWf s.mem) {base : Nat} {l : List Byte}
    (hl : base + l.length ≤ 4096) : memWf (s.writeBytes base l).mem := by
  induction l generalizing s base with
  | nil => exact h
  | cons b l ih =>
    simp only [List.length_cons] at hl
    exact ih (s := s.writeMem base b) (memWf_memSet h (by simp; omega) b) (by omega)

/-! ## Several bytes -/

/-- After a store of several bytes, a read gives the stored byte inside them and the old byte outside. -/
theorem State.readMem_writeBytes (s : State) (base : Nat) (l : List Byte) (a : Nat) :
    (s.writeBytes base l).readMem a =
      if base ≤ a then l.getD (a - base) (s.readMem a) else s.readMem a := by
  induction l generalizing s base with
  | nil => simp [State.writeBytes]
  | cons b l ih =>
    rw [State.writeBytes, ih, State.readMem_writeMem]
    by_cases h1 : base + 1 ≤ a
    · have h2 : base ≤ a := by omega
      have h3 : a ≠ base := by omega
      have h4 : a - base = (a - (base + 1)) + 1 := by omega
      simp [h1, h2, h3, h4]
    · by_cases h2 : a = base
      · subst h2; simp
      · have h3 : ¬ base ≤ a := by omega
        simp [h1, h2, h3]

theorem State.readMem_writeBytes_outside (s : State) (base : Nat) (l : List Byte) {a : Nat}
    (h : a < base ∨ base + l.length ≤ a) : (s.writeBytes base l).readMem a = s.readMem a := by
  rw [State.readMem_writeBytes]
  split
  · rw [List.getD_eq_default]; omega
  · rfl

theorem State.readMem_writeBytes_inside (s : State) (base : Nat) (l : List Byte) {j : Nat} (h : j < l.length) :
    (s.writeBytes base l).readMem (base + j) = l[j] := by
  rw [State.readMem_writeBytes]
  simp [h]

/-- An update that a store of one byte commutes with commutes with a store of several. -/
theorem State.writeBytes_comm (g : State → State) (hg : ∀ s a b, (g s).writeMem a b = g (s.writeMem a b)) (s : State)
    (base : Nat) (l : List Byte) : (g s).writeBytes base l = g (s.writeBytes base l) := by
  induction l generalizing s base with
  | nil => rfl
  | cons b l ih => simp only [State.writeBytes]; rw [hg, ih]

/-- A block holds one byte per address. -/
@[simp] theorem State.readBytes_length (s : State) (base count : Nat) : (s.readBytes base count).length = count := by
  simp [State.readBytes]

theorem State.readBytes_getElem (s : State) (base count j : Nat) (h : j < (s.readBytes base count).length) :
    (s.readBytes base count)[j] = s.readMem (base + j) := by
  simp [State.readBytes]

/-! ## Checks -/

/-- The read check with its bound as a numeral. -/
theorem readFault_eq (pc : Word) (a : Nat) :
    readFault pc a = if a > 4095 then some (.memoryOutOfRange pc a .read) else none := rfl

/-- The write checks with their bounds as numerals. -/
theorem writeFault_eq (pc : Word) (a : Nat) :
    writeFault pc a =
      if a > 4095 then some (.memoryOutOfRange pc a .write)
      else if a < 80 then some (.glyphRegionWrite pc a)
      else none := rfl

/-- What an unlisted address reads as, with the glyph region's bounds as numerals. -/
theorem blankByte_eq (a : Nat) : blankByte a = if 0 ≤ a ∧ a < 80 then Config.glyphTable.getD a 0 else 0 := rfl

/-- Outside the glyph region an address nothing has written reads as 0. -/
theorem blankByte_high {a : Nat} (h : 80 ≤ a) : blankByte a = 0 := by
  rw [blankByte_eq, if_neg (by omega)]

/-- The check of one more address comes after those of the lower ones. -/
theorem firstFault_succ (check : Nat → Option Fault) (base count : Nat) :
    firstFault check base (count + 1) = (firstFault check base count).or (check (base + count)) := by
  simp [firstFault, List.range_succ, List.findSome?_append]

theorem firstFault_eq_none {check : Nat → Option Fault} {base count : Nat} :
    firstFault check base count = none ↔ ∀ j, j < count → check (base + j) = none := by
  simp [firstFault]

/-- CheckRead raises exactly when its last address is above memory, and reports the lowest such address. -/
theorem State.checkRead_eq (s : State) (base count : Nat) :
    s.checkRead base count =
      if 0 < count ∧ 4095 < base + count - 1 then some (.memoryOutOfRange s.pc (max base 4096) .read) else none := by
  unfold State.checkRead
  induction count with
  | zero => rfl
  | succ n ih =>
    rw [firstFault_succ, ih, readFault_eq]
    by_cases h : 0 < n ∧ 4095 < base + n - 1
    · rw [if_pos h, if_pos (c := 0 < n + 1 ∧ _) (by omega), Option.some_or]
    · rw [if_neg h, Option.none_or]
      by_cases h2 : base + n > 4095
      · have : max base 4096 = base + n := by omega
        rw [if_pos h2, if_pos (by omega), this]
      · rw [if_neg h2, if_neg (by omega)]

/-- A read check passes exactly when every address is in memory. -/
theorem State.checkRead_none {s : State} {base count : Nat} :
    s.checkRead base count = none ↔ count = 0 ∨ base + count ≤ 4096 := by
  rw [State.checkRead_eq]
  split <;> simp <;> omega

/-- What a write check of at most 16 bytes reports: in the glyph region its base, else the lowest address above
memory. -/
theorem State.checkWrite_eq (s : State) {base count : Nat} (hc : 0 < count) (hsmall : count ≤ 16) :
    s.checkWrite base count =
      if base < 80 then some (.glyphRegionWrite s.pc base)
      else if 4095 < base + count - 1 then some (.memoryOutOfRange s.pc (max base 4096) .write)
      else none := by
  unfold State.checkWrite
  induction count with
  | zero => omega
  | succ n ih =>
    rw [firstFault_succ, writeFault_eq]
    by_cases hn : n = 0
    · subst hn
      have h0 : firstFault (writeFault s.pc) base 0 = none := rfl
      rw [h0, Option.none_or, Nat.add_zero]
      by_cases h1 : base > 4095
      · have h3 : max base 4096 = base := by omega
        rw [if_pos h1, if_neg (by omega), if_pos (by omega), h3]
      · rw [if_neg h1]
        by_cases h2 : base < 80
        · rw [if_pos h2, if_pos h2]
        · rw [if_neg h2, if_neg h2, if_neg (by omega)]
    · rw [ih (by omega) (by omega)]
      by_cases h2 : base < 80
      · rw [if_pos h2, if_pos h2]; rfl
      · rw [if_neg h2, if_neg h2]
        by_cases h : 4095 < base + n - 1
        · rw [if_pos h, Option.some_or, if_pos (by omega)]
        · rw [if_neg h, Option.none_or]
          by_cases h3 : base + n > 4095
          · have : max base 4096 = base + n := by omega
            rw [if_pos h3, if_pos (by omega), this]
          · rw [if_neg h3, if_neg (by omega), if_neg (by omega)]

/-- A write check passes exactly when every address is in memory and above the glyph region. -/
theorem State.checkWrite_none {s : State} {base count : Nat} (hc : 0 < count) (hsmall : count ≤ 16) :
    s.checkWrite base count = none ↔ 80 ≤ base ∧ base + count ≤ 4096 := by
  rw [State.checkWrite_eq s hc hsmall]
  split
  · simp; omega
  · split <;> simp <;> omega

end Sys2Proof.Machine
end

