-- ==== Sys2Proof/Laws/Display.lean ====
section
/-!
SUPPORT. The display: a cell after a flip, after a clear and after the blit of a sprite.
-/
namespace Sys2Proof.Machine

/-- No cell is lit past the last one. -/
theorem fbCell_past (fb : Vector Row 32) {j : Nat} (h : 2048 ≤ j) : fbCell fb j = false := by
  unfold fbCell
  rw [dif_neg]
  rw [Config.displayW_eq]; omega

theorem fbCell_eq (fb : Vector Row 32) {j : Nat} (h : j / 64 < 32) : fbCell fb j = fb[j / 64].getLsbD (j % 64) := by
  unfold fbCell
  rw [dif_pos (by simpa using h)]; rfl

/-- Flipping a cell inverts it and leaves every other cell alone. -/
theorem fbCell_fbFlip (fb : Vector Row 32) {j : Nat} (hj : j < 2048) (k : Nat) :
    fbCell (fbFlip fb j) k = (fbCell fb k ^^ decide (k = j)) := by
  have hjr : j / 64 < 32 := by omega
  have hflip : fbFlip fb j = fb.set (j / 64) (fb[j / 64] ^^^ BitVec.twoPow 64 (j % 64)) := by
    unfold fbFlip; rw [dif_pos (by simpa using hjr)]; rfl
  by_cases hk : k / 64 < 32
  · rw [fbCell_eq _ hk, fbCell_eq _ hk, hflip, Vector.getElem_set]
    by_cases hr : j / 64 = k / 64
    · have hc : k % 64 = j % 64 ↔ k = j := by omega
      have hk64 : k % 64 < 64 := by omega
      simp [hr, hk64, hc]
    · have hne : k ≠ j := fun e => hr (by rw [e])
      simp [hr, hne]
  · have hne : k ≠ j := by omega
    rw [fbCell_past _ (by omega), fbCell_past _ (by omega)]
    simp [hne]

/-- A plotted bit with the display's bound as a numeral. -/
theorem plot_eq (d : Blit) (j : Nat) :
    plot d j = if j < 2048 then { fb := fbFlip d.fb j, collided := d.collided || fbCell d.fb j } else d := rfl

/-- A plotted bit inverts its cell if that is on the screen. -/
theorem fbCell_plot (d : Blit) (j k : Nat) :
    fbCell (plot d j).fb k = (fbCell d.fb k ^^ decide (k = j ∧ j < 2048)) := by
  rw [plot_eq]
  split
  · next h => rw [fbCell_fbFlip _ h]; simp [h]
  · next h => simp [h]

/-- A plotted bit collides if its cell is lit. -/
theorem collided_plot (d : Blit) (j : Nat) : (plot d j).collided = (d.collided || fbCell d.fb j) := by
  rw [plot_eq]
  split
  · rfl
  · next h => rw [fbCell_past _ (by omega)]; simp

/-- A sprite is its first row and then the rest, one display row lower. -/
theorem blitRows_cons (x y : Nat) (b : Byte) (rows : List Byte) (d : Blit) :
    blitRows x y (b :: rows) d = blitRows x (y + 1) rows (blitRow b (y * 64 + x) d) := rfl

/-- A cleared display has no lit cell. -/
@[simp] theorem fbCell_clear (j : Nat) : fbCell (Vector.replicate 32 0#64) j = false := by
  unfold fbCell; split <;> simp

/-! ## The blit -/

/-- The rows have a lit bit at linear index j when drawn at column x and row y. -/
def RowsLight (rows : List Byte) (x y j : Nat) : Prop :=
  ∃ r c, ∃ h : r < rows.length, c < 8 ∧ spriteBit rows[r] c = true ∧ j = (y + r) * 64 + (x + c)

/-- The first m columns of one sprite row. -/
def blitColumns (b : Byte) (base m : Nat) (d : Blit) : Blit :=
  (List.range m).foldl (fun d c => if spriteBit b c then plot d (base + c) else d) d

open Classical in
/-- The first m columns of a row invert the on-screen cells of its lit bits, and collide on those that were lit. -/
theorem blitColumns_spec (b : Byte) (base m : Nat) (d : Blit) :
    (∀ k, fbCell (blitColumns b base m d).fb k =
      (fbCell d.fb k ^^ decide (k < 2048 ∧ base ≤ k ∧ k < base + m ∧ spriteBit b (k - base) = true))) ∧
    (blitColumns b base m d).collided = (d.collided ||
      decide (∃ k, base ≤ k ∧ k < base + m ∧ spriteBit b (k - base) = true ∧ fbCell d.fb k = true)) := by
  induction m with
  | zero =>
    refine ⟨fun k => ?_, ?_⟩
    · rw [decide_eq_false (by omega)]; simp [blitColumns]
    · rw [decide_eq_false]; · simp [blitColumns]
      rintro ⟨k, h⟩; omega
  | succ m ih =>
    have hs : blitColumns b base (m+1) d = if spriteBit b m then plot (blitColumns b base m d) (base + m) else blitColumns b base m d := by
      simp only [blitColumns, List.range_succ, List.foldl_append, List.foldl_cons, List.foldl_nil]
    obtain ⟨ih1, ih2⟩ := ih
    rw [hs]
    cases hb : spriteBit b m with
    | false =>
      simp only [Bool.false_eq_true, if_false]
      refine ⟨fun k => ?_, ?_⟩
      · rw [ih1]; congr 1; rw [decide_eq_decide]
        constructor
        · rintro ⟨h0, h1, h2, h3⟩; exact ⟨h0, h1, by omega, h3⟩
        · rintro ⟨h0, h1, h2, h3⟩
          refine ⟨h0, h1, ?_, h3⟩
          by_contra hc
          have : k - base = m := by omega
          rw [this, hb] at h3; cases h3
      · rw [ih2]; congr 1; rw [decide_eq_decide]
        constructor
        · rintro ⟨k, h1, h2, h3⟩; exact ⟨k, h1, by omega, h3⟩
        · rintro ⟨k, h1, h2, h3⟩
          refine ⟨k, h1, ?_, h3⟩
          by_contra hc
          have : k - base = m := by omega
          rw [this, hb] at h3; cases h3.1
    | true =>
      simp only [if_true]
      refine ⟨fun k => ?_, ?_⟩
      · rw [fbCell_plot, ih1, Bool.xor_assoc]; congr 1
        by_cases hk : k = base + m
        · have h1 : ¬ (k < 2048 ∧ base ≤ k ∧ k < base + m ∧ spriteBit b (k - base) = true) := by omega
          rw [decide_eq_false h1, Bool.false_xor, decide_eq_decide]
          subst hk
          simp [hb]
        · have h1 : ¬ (k = base + m ∧ base + m < 2048) := by simp [hk]
          rw [decide_eq_false h1, Bool.xor_false, decide_eq_decide]
          constructor
          · rintro ⟨h0, h1, h2, h3⟩; exact ⟨h0, h1, by omega, h3⟩
          · rintro ⟨h0, h1, h2, h3⟩; exact ⟨h0, h1, by omega, h3⟩
      · rw [collided_plot, ih2, ih1, Bool.or_assoc]; congr 1
        have h1 : ¬ (base + m < 2048 ∧ base ≤ base + m ∧ base + m < base + m ∧ spriteBit b (base + m - base) = true) := by omega
        rw [decide_eq_false h1, Bool.xor_false]
        rw [Bool.eq_iff_iff, Bool.or_eq_true, decide_eq_true_iff, decide_eq_true_iff]
        constructor
        · rintro (⟨k, h1, h2, h3⟩ | h)
          · exact ⟨k, h1, by omega, h3⟩
          · exact ⟨base + m, by omega, by omega, by simpa using hb, h⟩
        · rintro ⟨k, h1, h2, h3, h4⟩
          by_cases hk : k = base + m
          · right; rw [← hk]; exact h4
          · left; exact ⟨k, h1, by omega, h3, h4⟩

open Classical in
/-- Everything a blit does: the on-screen cells of the lit bits are inverted, every other cell stays, and it collides
exactly if one of those cells was lit. -/
theorem blitRows_spec (rows : List Byte) (x y : Nat) (d : Blit) :
    (∀ k, k < 2048 → RowsLight rows x y k → fbCell (blitRows x y rows d).fb k = !fbCell d.fb k) ∧
    (∀ k, ¬ RowsLight rows x y k → fbCell (blitRows x y rows d).fb k = fbCell d.fb k) ∧
    ((blitRows x y rows d).collided = true ↔ d.collided = true ∨ ∃ k, RowsLight rows x y k ∧ fbCell d.fb k = true) := by
  induction rows generalizing y d with
  | nil => simp [blitRows, RowsLight]
  | cons b rows ih =>
    obtain ⟨r1, r2⟩ := blitColumns_spec b (y * 64 + x) 8 d
    have hrow : blitRow b (y * Config.displayW + x) d = blitColumns b (y * 64 + x) 8 d := rfl
    obtain ⟨i1, i2, i3⟩ := ih (y+1) (blitColumns b (y * 64 + x) 8 d)
    have hsplit : ∀ k, RowsLight (b :: rows) x y k ↔ (y*64 + x ≤ k ∧ k < y*64+x+8 ∧ spriteBit b (k - (y*64+x)) = true) ∨ RowsLight rows x (y+1) k := by
      intro k
      constructor
      · rintro ⟨r, c, hr, hc, hb, hk⟩
        cases r with
        | zero =>
          left
          have : k - (y*64+x) = c := by omega
          rw [this]; exact ⟨by omega, by omega, hb⟩
        | succ r => right; exact ⟨r, c, by simpa using hr, hc, hb, by omega⟩
      · rintro (⟨h1, h2, h3⟩ | ⟨r, c, hr, hc, hb, hk⟩)
        · exact ⟨0, k - (y*64+x), by simp, by omega, h3, by omega⟩
        · exact ⟨r+1, c, by simpa using hr, hc, hb, by omega⟩
    have hdisj : ∀ k, (y*64 + x ≤ k ∧ k < y*64+x+8) → ¬ RowsLight rows x (y+1) k := by
      rintro k h ⟨r, c, hr, hc, hb, hk⟩; omega
    have hun : blitRows x y (b :: rows) d = blitRows x (y+1) rows (blitColumns b (y * 64 + x) 8 d) := by
      rw [blitRows, hrow]
    rw [hun]
    refine ⟨fun k hk hl => ?_, fun k hl => ?_, ?_⟩
    · rcases (hsplit k).1 hl with h | h
      · rw [i2 k (hdisj k ⟨h.1, h.2.1⟩), r1, decide_eq_true ⟨hk, h⟩]; simp
      · rw [i1 k hk h, r1, decide_eq_false]; · simp
        rintro ⟨_, h1, h2, _⟩; exact hdisj k ⟨h1, h2⟩ h
    · rw [hsplit, not_or] at hl
      rw [i2 k hl.2, r1, decide_eq_false]; · simp
      rintro ⟨_, h⟩; exact hl.1 h
    · rw [i3, r2, Bool.or_eq_true, decide_eq_true_iff, or_assoc]
      apply or_congr_right
      constructor
      · rintro (⟨k, h1, h2, h3, h4⟩ | ⟨k, h, h4⟩)
        · exact ⟨k, (hsplit k).2 (.inl ⟨h1, h2, h3⟩), h4⟩
        · refine ⟨k, (hsplit k).2 (.inr h), ?_⟩
          rw [r1, decide_eq_false] at h4; · simpa using h4
          rintro ⟨_, h1, h2, _⟩; exact hdisj k ⟨h1, h2⟩ h
      · rintro ⟨k, h, h4⟩
        rcases (hsplit k).1 h with h | h
        · exact .inl ⟨k, h.1, h.2.1, h.2.2, h4⟩
        · refine .inr ⟨k, h, ?_⟩
          rw [r1, decide_eq_false]; · simpa using h4
          rintro ⟨_, h1, h2, _⟩; exact hdisj k ⟨h1, h2⟩ h

/-- The sprite in memory lights what its bytes light. -/
theorem rowsLight_sprite (s : State) (x y : Byte) (n j : Nat) :
    RowsLight (s.sprite n) x.toNat y.toNat j ↔ SpriteLights s x y n j := by
  unfold RowsLight SpriteLights State.sprite
  constructor
  · rintro ⟨r, c, hr, hc, hb, hk⟩
    refine ⟨r, c, by simpa using hr, hc, ?_, hk⟩
    rw [State.readBytes_getElem] at hb; exact hb
  · rintro ⟨r, c, hr, hc, hb, hk⟩
    refine ⟨r, c, by simpa using hr, hc, ?_, hk⟩
    rw [State.readBytes_getElem]; exact hb

end Sys2Proof.Machine
end

