-- ==== Sys2Proof/Laws/Registers.lean ====
section
/-!
SUPPORT. The accessors of registers and stack slots after each update, and the block of registers a load writes.
-/
namespace Sys2Proof.Machine

@[simp] theorem State.getV_setV (s : State) (x y : RegIx) (b : Byte) :
    (s.setV x b).getV y = if y = x then b else s.getV y := by
  unfold State.getV State.setV
  by_cases h : y = x
  · subst h; simp
  · have : x.toNat ≠ y.toNat := fun e => h (BitVec.eq_of_toNat_eq e.symm)
    simp [h, this]

/-- V is read through the field v alone. -/
theorem State.getV_congr {s t : State} (h : t.v = s.v) (x : RegIx) : t.getV x = s.getV x := by
  simp [State.getV, h]

@[simp] theorem State.getV_finish (s : State) (w : Word) (x : RegIx) : (s.finish w).getV x = s.getV x := rfl
@[simp] theorem State.getV_advance (s : State) (x : RegIx) : s.advance.getV x = s.getV x := rfl
@[simp] theorem State.getV_setI (s : State) (w : Word) (x : RegIx) : (s.setI w).getV x = s.getV x := rfl
@[simp] theorem State.getV_skipIf (s : State) (c : Bool) (x : RegIx) : (s.skipIf c).getV x = s.getV x :=
  State.getV_congr (by simp) x
@[simp] theorem State.getV_advanceSubn (s : State) (x : RegIx) : s.advanceSubn.getV x = s.getV x :=
  State.getV_congr (by simp) x
@[simp] theorem State.getV_writeBytes (s : State) (base : Nat) (l : List Byte) (x : RegIx) :
    (s.writeBytes base l).getV x = s.getV x := State.getV_congr (by simp) x

/-- The flag instructions: the result stays where the destination is VF (10_state.md R17). -/
@[simp] theorem State.getV_setFlagThenV (s : State) (f b : Byte) (x y : RegIx) :
    (s.setFlagThenV f x b).getV y = if y = x then b else if y = vf then f else s.getV y := by
  simp [State.setFlagThenV]

@[simp] theorem State.getV_loadBlock (s : State) (x : RegIx) (base : Nat) (y : RegIx) :
    (s.loadBlock x base).getV y = if y ≤ x then s.readMem (base + y.toNat) else s.getV y := by
  simp [State.getV, State.loadBlock, BitVec.le_def]

/-- The registers V0..Vx as a block: its length and its entries. -/
@[simp] theorem State.regBlock_length (s : State) (x : RegIx) : (s.regBlock x).length = x.toNat + 1 := by
  have := x.isLt
  simp [State.regBlock, blockSize]; omega

theorem State.regBlock_getElem (s : State) (x y : RegIx) (h : y.toNat < (s.regBlock x).length) :
    (s.regBlock x)[y.toNat] = s.getV y := by
  simp [State.regBlock, State.getV]

@[simp] theorem State.getSlot_push (s : State) (a : Word) (j : BitVec 4) :
    (s.push a).getSlot j = if j = s.sp + 1 then a else s.getSlot j := by
  unfold State.getSlot
  by_cases h : j = s.sp + 1
  · subst h; simp
  · have : (s.sp + 1).toNat ≠ j.toNat := fun e => h (BitVec.eq_of_toNat_eq e.symm)
    simp only [State.push_stack, Vector.getElem_set, this, if_false, h]

/-- A slot is read through the field stack alone. -/
theorem State.getSlot_congr {s t : State} (h : t.stack = s.stack) (j : BitVec 4) : t.getSlot j = s.getSlot j := by
  simp [State.getSlot, h]

end Sys2Proof.Machine
end

