-- ==== Sys2Proof/Laws/Step.lean ====
section
/-!
SUPPORT. The fetch's check, the two outcomes of a guarded instruction, the cases of a step, and what the environment's
input does.
-/
namespace Sys2Proof.Machine

/-- The fetch accepts an even PC in ENTRY .. MEM_SIZE - 2 (10_state.md R22). -/
theorem pcOk_iff {pc : Word} : pcOk pc = true ↔ pc.toNat % 2 = 0 ∧ 512 ≤ pc.toNat ∧ pc.toNat ≤ 4094 := by
  unfold pcOk
  rw [decide_eq_true_iff]
  simp

/-- A guarded instruction answers a next state exactly when its check passes. -/
theorem guarded_eq_next {c : Option Fault} {b t : State} : guarded c b = .next t ↔ c = none ∧ b = t := by
  cases c <;> simp [guarded, raise]

/-- A guarded instruction faults exactly with its check's fault. -/
theorem guarded_eq_fault {c : Option Fault} {b : State} {f : Fault} : guarded c b = .fault f ↔ c = some f := by
  cases c <;> simp [guarded, raise]

/-- Everything a step's core part can do. -/
theorem coreStep_cases (s : State) :
    (pcOk s.pc = false ∧ coreStep s = .fault (.invalidPc s.pc)) ∨
    (pcOk s.pc = true ∧ (∃ e, decodeWord s.fetchWord = .error e) ∧
      coreStep s = .fault (.unknownOpcode s.fetchWord s.pc)) ∨
    (pcOk s.pc = true ∧ ∃ i, decodeWord s.fetchWord = .ok i ∧ coreStep s = exec i s) := by
  unfold coreStep
  cases hp : pcOk s.pc with
  | false => exact .inl ⟨rfl, rfl⟩
  | true =>
    cases hd : decodeWord s.fetchWord with
    | error e => exact .inr (.inl ⟨rfl, ⟨e, rfl⟩, rfl⟩)
    | ok i => exact .inr (.inr ⟨rfl, i, rfl, rfl⟩)

/-- A step that completes has executed the instruction the decoder read at a PC the fetch accepts. -/
theorem coreStep_next {s t : State} (h : coreStep s = .next t) :
    pcOk s.pc = true ∧ ∃ i, decodeWord s.fetchWord = .ok i ∧ exec i s = .next t := by
  rcases coreStep_cases s with ⟨_, e⟩ | ⟨_, _, e⟩ | ⟨hp, i, hd, e⟩
  · rw [e] at h; cases h
  · rw [e] at h; cases h
  · exact ⟨hp, i, hd, e ▸ h⟩

/-- A run of k + 1 steps is one step and then a run of k, for any machine behind the interface. -/
theorem run_succ_next (m : Host.Core) {k : Nat} {s t : m.State} (h : m.step s = .next t) :
    m.run (k + 1) s = m.run k t := by
  rw [Host.Core.run, h]

/-- k + 1 steps are one step and then k. -/
theorem runFor_succ_next {k : Nat} {s t : State} (h : step s = .next t) : runFor (k + 1) s = runFor k t :=
  run_succ_next core h

/-! ## The environment's input -/

theorem State.deliver_nil {s : State} (h : s.inputs = []) :
    s.deliver = { s with rnd := Config.freeRnd s.freeIx, freeIx := s.freeIx + 1 } := by
  unfold State.deliver; rw [h]

theorem State.deliver_cons {s : State} {inp : StepInput} {rest : List StepInput} (h : s.inputs = inp :: rest) :
    s.deliver = { applyOps { s with inputs := rest } inp.ops with rnd := inp.rnd } := by
  unfold State.deliver; rw [h]

/-- A load's failure with its bounds as numerals. -/
theorem loadError_some (bytes : List Byte) :
    loadError (some bytes) = if 512 + bytes.length > 4096 then some .romTooLarge else none := rfl

/-- Everything a load can do. -/
theorem State.hostLoad_cases (s : State) (rom : Option (List Byte)) :
    (s.hostLoad rom = s ∧ ∃ e, loadError rom = some e) ∨
    ∃ bytes, rom = some bytes ∧ bytes.length ≤ 3584 ∧ loadError rom = none ∧
      s.hostLoad rom = s.writeBytes 512 bytes := by
  cases rom with
  | none => exact .inl ⟨rfl, _, rfl⟩
  | some bytes =>
    by_cases h : bytes.length ≤ 3584
    · have he : loadError (some bytes) = none := by rw [loadError_some, if_neg (by omega)]
      exact .inr ⟨bytes, rfl, h, he, by simp [State.hostLoad, he]⟩
    · have he : loadError (some bytes) = some .romTooLarge := by rw [loadError_some, if_pos (by omega)]
      exact .inl ⟨by simp [State.hostLoad, he], _, he⟩

/-- A property every transaction keeps is kept by a list of them. -/
theorem applyOps_induction {p : State → Prop} (h : ∀ s op, p s → p (HostOp.apply s op)) (ops : List HostOp) {s : State}
    (hs : p s) : p (applyOps s ops) := by
  induction ops generalizing s with
  | nil => exact hs
  | cons op ops ih => exact ih (h s op hs)

/-- A timer's decrement stops at 0 (45_keypad_timer.md R111). -/
theorem countDown_toNat (b : Byte) : (countDown b).toNat = b.toNat - 1 := by
  unfold countDown
  split
  · next h => subst h; rfl
  · next h =>
    have hne : b.toNat ≠ 0 := fun e => h (BitVec.eq_of_toNat_eq e)
    have := b.isLt
    rw [BitVec.toNat_sub]; simp; omega

/-- set_key writes the key of its index and no other (45_keypad_timer.md R113). -/
theorem State.setKey_keys {s : State} {k j : Nat} (hk : k < 16) (hj : j < 16) (pressed : Bool) :
    (s.setKey k pressed).keys[j] = if j = k then pressed else s.keys[j] := by
  unfold State.setKey
  rw [dif_pos hk]
  by_cases h : j = k
  · subst h; simp
  · simp [h, Ne.symm h]

/-- An index above 15 changes nothing (R113). -/
theorem State.setKey_past {s : State} {k : Nat} (hk : 15 < k) (pressed : Bool) : s.setKey k pressed = s := by
  unfold State.setKey
  rw [dif_neg (by omega)]

/-! ## Codes (60_exceptions.md R119) -/

@[simp] theorem resultCode_next (t : State) : resultCode (.next t) = some 0 := rfl
@[simp] theorem resultCode_fault (f : Fault) : resultCode (.fault f) = some f.code := rfl
@[simp] theorem resultCode_refused (e : Refusal) : resultCode (.refused e) = none := rfl

/-- No fault has the code of Ok. -/
theorem Fault.code_ne_zero (f : Fault) : f.code ≠ 0 := by cases f <;> simp [Fault.code]

end Sys2Proof.Machine
end

