-- ==== Sys2Proof/Laws/Exec.lean ====
section
/-!
SUPPORT. The one inversion lemma of exec: everything a completed instruction does. Proofs about every instruction cite
it instead of unfolding the meanings.
-/
namespace Sys2Proof.Machine

/-- What a completed instruction requires and the state it leaves, one line per instruction. -/
def Completes : Instr → State → State → Prop
  | .cls, s, t => t = ({ s with fb := Vector.replicate 32 0 } : State).advance
  | .ret, s, t => s.popFault = none ∧ t = s.pop.finish (s.getSlot s.sp + 2)
  | .jp nnn, s, t => t = s.finish nnn
  | .call nnn, s, t => s.pushFault = none ∧ t = (s.push s.pc).finish nnn
  | .seImm x kk, s, t => t = s.skipIf (s.getV x == kk)
  | .sneImm x kk, s, t => t = s.skipIf (s.getV x != kk)
  | .seReg x y, s, t => t = s.skipIf (s.getV x == s.getV y)
  | .sneReg x y, s, t => t = s.skipIf (s.getV x != s.getV y)
  | .ldImm x kk, s, t => t = (s.setV x kk).advance
  | .addImm x kk, s, t => t = (s.setV x (s.getV x + kk)).advance
  | .ldReg x y, s, t => t = (s.setV x (s.getV y)).advance
  | .orReg x y, s, t => t = (s.setV x (s.getV x ||| s.getV y)).advance
  | .andReg x y, s, t => t = (s.setV x (s.getV x &&& s.getV y)).advance
  | .xorReg x y, s, t => t = (s.setV x (s.getV x ^^^ s.getV y)).advance
  | .addReg x y, s, t => t = (s.setFlagThenV (carryFlag (s.getV x) (s.getV y)) x (s.getV x + s.getV y)).advance
  | .subReg x y, s, t => t = (s.setFlagThenV (notBorrowFlag (s.getV x) (s.getV y)) x (s.getV x - s.getV y)).advance
  | .subnReg x y, s, t => t = (s.setFlagThenV (notBorrowFlag (s.getV y) (s.getV x)) x (s.getV y - s.getV x)).advanceSubn
  | .shr x, s, t => t = (s.setFlagThenV (lowBitFlag (s.getV x)) x (s.getV x >>> 1)).advance
  | .shl x, s, t => t = (s.setFlagThenV (highBitFlag (s.getV x)) x (s.getV x <<< 1)).advance
  | .ldI nnn, s, t => t = (s.setI nnn).advance
  | .addI x, s, t => t = (s.setI (s.i + (s.getV x).toWord)).advance
  | .ldF x, s, t => t = (s.setI (glyphAddr (s.getV x))).advance
  | .jpV0 nnn, s, t => t = s.finish (nnn + (s.getV 0).toWord)
  | .rnd x kk, s, t => t = (s.setV x (s.rnd &&& kk)).advance
  | .drw x y n, s, t => s.checkRead s.addrI n = none ∧
      t = ({ s with fb := (s.blit (s.getV x) (s.getV y) (s.sprite n)).fb }.setV vf
        (flagByte (s.blit (s.getV x) (s.getV y) (s.sprite n)).collided)).advance
  | .skp x, s, t => ∃ p, s.keyAt (s.getV x) = some p ∧ t = s.skipIf (p == true)
  | .sknp x, s, t => ∃ p, s.keyAt (s.getV x) = some p ∧ t = s.skipIf (p == false)
  | .ldVxDt x, s, t => t = (s.setV x s.dt).advance
  | .ldVxK x, s, t =>
      (∃ k, s.firstPressed = some k ∧
      t = (s.setV x (k.setWidth 8)).advance) ∨
      (s.firstPressed = none ∧
      t = s.awaitKey)
  | .ldDtVx x, s, t => t = (s.setDt (s.getV x)).advance
  | .ldStVx x, s, t => t = (s.setSt (s.getV x)).advance
  | .ldB x, s, t => s.checkWrite s.addrI 3 = none ∧ t = (s.writeBytes s.addrI (digits (s.getV x))).advance
  | .storeRegs x, s, t =>
      s.checkWrite s.addrI (blockSize x) = none ∧
      t = ((s.writeBytes s.addrI (s.regBlock x)).setI (s.pastBlock x)).advance
  | .loadRegs x, s, t =>
      s.checkRead s.addrI (blockSize x) = none ∧
      t = ((s.loadBlock x s.addrI).setI (s.pastBlock x)).advance

/-- An instruction that answers a next state has passed its checks and left exactly its state. -/
theorem exec_next {i : Instr} {s t : State} (h : exec i s = .next t) : Completes i s t := by
  cases i
  case ret => obtain ⟨a, b⟩ := guarded_eq_next.1 h; exact ⟨a, b.symm⟩
  case call => obtain ⟨a, b⟩ := guarded_eq_next.1 h; exact ⟨a, b.symm⟩
  case drw => obtain ⟨a, b⟩ := guarded_eq_next.1 h; exact ⟨a, b.symm⟩
  case ldB => obtain ⟨a, b⟩ := guarded_eq_next.1 h; exact ⟨a, b.symm⟩
  case storeRegs => obtain ⟨a, b⟩ := guarded_eq_next.1 h; exact ⟨a, b.symm⟩
  case loadRegs => obtain ⟨a, b⟩ := guarded_eq_next.1 h; exact ⟨a, b.symm⟩
  case skp x =>
    change skipOnKey _ _ _ = _ at h; unfold skipOnKey at h; split at h
    · cases h
    · next p hp => injection h with h; exact ⟨p, hp, h.symm⟩
  case sknp x =>
    change skipOnKey _ _ _ = _ at h; unfold skipOnKey at h; split at h
    · cases h
    · next p hp => injection h with h; exact ⟨p, hp, h.symm⟩
  case ldVxK x =>
    change execLdVxK _ _ = _ at h; unfold execLdVxK at h; split at h
    · next p hp => injection h with h; exact .inl ⟨p, hp, h.symm⟩
    · next hp => injection h with h; exact .inr ⟨hp, h.symm⟩
  all_goals (injection h with h; exact h.symm)

/-- No instruction is refused. -/
theorem exec_ne_refused (i : Instr) (s : State) (e : Refusal) : exec i s ≠ .refused e := by
  have hg : ∀ c b, guarded c b ≠ .refused e := by intro c b; cases c <;> simp [guarded, raise]
  have hk : ∀ x w, skipOnKey x w s ≠ .refused e := by
    intro x w; unfold skipOnKey; split <;> simp [raise]
  cases i
  case ret => exact hg _ _
  case call => exact hg _ _
  case drw => exact hg _ _
  case ldB => exact hg _ _
  case storeRegs => exact hg _ _
  case loadRegs => exact hg _ _
  case skp => exact hk _ _
  case sknp => exact hk _ _
  case ldVxK x =>
    show execLdVxK x s ≠ _
    unfold execLdVxK; split <;> simp
  all_goals
    intro h; cases h

/-- No step is refused. -/
theorem step_ne_refused (s : State) (e : Refusal) : step s ≠ .refused e := by
  unfold step
  rcases coreStep_cases s.deliver with ⟨_, h⟩ | ⟨_, _, h⟩ | ⟨_, i, _, h⟩ <;> rw [h]
  · simp
  · simp
  · exact exec_ne_refused i _ e

/-- The scan of the keypad finds nothing exactly when no key is pressed. -/
theorem State.firstPressed_none {s : State} : s.firstPressed = none ↔ ∀ k : RegIx, s.keys[k.toNat] = false := by
  unfold State.firstPressed
  simp only [Option.map_eq_none_iff, List.find?_eq_none, List.mem_finRange, true_implies, Bool.not_eq_true]
  exact ⟨fun h k => h ⟨k.toNat, k.isLt⟩, fun h k => h (BitVec.ofFin k)⟩

/-- A key index is out of range exactly above 15. -/
theorem State.keyAt_none {s : State} {a : Byte} : s.keyAt a = none ↔ 15 < a.toNat := by
  simp [State.keyAt]; omega

end Sys2Proof.Machine
end

