-- ==== Sys2Proof/Laws/PerInstr.lean ====
section
/-!
SUPPORT. Statements about every instruction as syntax, one lemma per constructor. Family EncodedKey: the word the encoder
writes has the dispatch key that spec/30_encoding.md R66 gives the instruction.
-/
namespace Sys2Proof.Laws

/-! ## The key of a word by its format -/

theorem dispatchKey_zero (kk : Byte) : dispatchKey (encXkk 0x0 0 kk) = kk.setWidth 16 := by
  unfold dispatchKey
  rw [opOf_encXkk, if_pos rfl]
  apply BitVec.eq_of_getLsbD_eq; intro i hi
  rw [BitVec.getLsbD_and, getLsbD_encXkk]
  interval_cases i <;> simp

theorem dispatchKey_nnn (op : BitVec 4) (nnn : Word) (h0 : op ≠ 0x0) (h8 : op ≠ 0x8) (he : op ≠ 0xE)
    (hf : op ≠ 0xF) : dispatchKey (encNnn op nnn) = op ++ (0 : BitVec 12) := by
  unfold dispatchKey
  rw [opOf_encNnn, if_neg h0, if_neg h8, if_neg (not_or.2 ⟨he, hf⟩)]
  apply BitVec.eq_of_getLsbD_eq; intro i hi
  rw [BitVec.getLsbD_and, getLsbD_encNnn, BitVec.getLsbD_append]
  interval_cases i <;> simp

theorem dispatchKey_xkk (op : BitVec 4) (x : RegIx) (kk : Byte) (h0 : op ≠ 0x0) (h8 : op ≠ 0x8) (he : op ≠ 0xE)
    (hf : op ≠ 0xF) : dispatchKey (encXkk op x kk) = op ++ (0 : BitVec 12) := by
  unfold dispatchKey
  rw [opOf_encXkk, if_neg h0, if_neg h8, if_neg (not_or.2 ⟨he, hf⟩)]
  apply BitVec.eq_of_getLsbD_eq; intro i hi
  rw [BitVec.getLsbD_and, getLsbD_encXkk, BitVec.getLsbD_append]
  interval_cases i <;> simp

theorem dispatchKey_func (op : BitVec 4) (x : RegIx) (kk : Byte) (h : op = 0xE ∨ op = 0xF) :
    dispatchKey (encXkk op x kk) = encXkk op 0 kk := by
  unfold dispatchKey
  have h0 : op ≠ 0x0 := by rcases h with rfl | rfl <;> decide
  have h8 : op ≠ 0x8 := by rcases h with rfl | rfl <;> decide
  rw [opOf_encXkk, if_neg h0, if_neg h8, if_pos h]
  apply BitVec.eq_of_getLsbD_eq; intro i hi
  rw [BitVec.getLsbD_and, getLsbD_encXkk, getLsbD_encXkk]
  interval_cases i <;> simp

theorem dispatchKey_alu (x y : RegIx) (n : BitVec 4) :
    dispatchKey (encXyn 0x8 x y n) = encXyn 0x8 0 0 n := by
  unfold dispatchKey
  rw [opOf_encXyn, if_neg (by decide), if_pos rfl]
  apply BitVec.eq_of_getLsbD_eq; intro i hi
  rw [BitVec.getLsbD_and, encXyn_eq, encXyn_eq, getLsbD_encXkk, getLsbD_encXkk]
  rw [BitVec.getLsbD_append, BitVec.getLsbD_append]
  interval_cases i <;> simp

/-! ## EncodedKey -/

namespace EncodedKey

/-- The key of R66. -/
def key : Instr → Word
  | .cls => 0x00E0
  | .ret => 0x00EE
  | .jp _ => 0x1000
  | .call _ => 0x2000
  | .seImm _ _ => 0x3000
  | .sneImm _ _ => 0x4000
  | .seReg _ _ => 0x5000
  | .ldImm _ _ => 0x6000
  | .addImm _ _ => 0x7000
  | .ldReg _ _ => 0x8000
  | .orReg _ _ => 0x8001
  | .andReg _ _ => 0x8002
  | .xorReg _ _ => 0x8003
  | .addReg _ _ => 0x8004
  | .subReg _ _ => 0x8005
  | .shr _ => 0x8006
  | .subnReg _ _ => 0x8007
  | .shl _ => 0x800E
  | .sneReg _ _ => 0x9000
  | .ldI _ => 0xA000
  | .jpV0 _ => 0xB000
  | .rnd _ _ => 0xC000
  | .drw _ _ _ => 0xD000
  | .skp _ => 0xE09E
  | .sknp _ => 0xE0A1
  | .ldVxDt _ => 0xF007
  | .ldVxK _ => 0xF00A
  | .ldDtVx _ => 0xF015
  | .ldStVx _ => 0xF018
  | .addI _ => 0xF01E
  | .ldF _ => 0xF029
  | .ldB _ => 0xF033
  | .storeRegs _ => 0xF055
  | .loadRegs _ => 0xF065

/-- The encoded word is dispatched by the key R66 gives the instruction. -/
def Statement (i : Instr) : Prop := dispatchKey (encode i) = key i

theorem cls : Statement .cls := dispatchKey_zero _
theorem ret : Statement .ret := dispatchKey_zero _
theorem jp (nnn : Word) : Statement (.jp nnn) :=
  dispatchKey_nnn _ _ (by decide) (by decide) (by decide) (by decide)
theorem call (nnn : Word) : Statement (.call nnn) :=
  dispatchKey_nnn _ _ (by decide) (by decide) (by decide) (by decide)
theorem seImm (x : RegIx) (kk : Byte) : Statement (.seImm x kk) :=
  dispatchKey_xkk _ _ _ (by decide) (by decide) (by decide) (by decide)
theorem sneImm (x : RegIx) (kk : Byte) : Statement (.sneImm x kk) :=
  dispatchKey_xkk _ _ _ (by decide) (by decide) (by decide) (by decide)
theorem seReg (x y : RegIx) : Statement (.seReg x y) := by
  show dispatchKey (encXyn 0x5 x y 0) = _
  rw [encXyn_eq]; exact dispatchKey_xkk _ _ _ (by decide) (by decide) (by decide) (by decide)
theorem ldImm (x : RegIx) (kk : Byte) : Statement (.ldImm x kk) :=
  dispatchKey_xkk _ _ _ (by decide) (by decide) (by decide) (by decide)
theorem addImm (x : RegIx) (kk : Byte) : Statement (.addImm x kk) :=
  dispatchKey_xkk _ _ _ (by decide) (by decide) (by decide) (by decide)
theorem ldReg (x y : RegIx) : Statement (.ldReg x y) := dispatchKey_alu x y _
theorem orReg (x y : RegIx) : Statement (.orReg x y) := dispatchKey_alu x y _
theorem andReg (x y : RegIx) : Statement (.andReg x y) := dispatchKey_alu x y _
theorem xorReg (x y : RegIx) : Statement (.xorReg x y) := dispatchKey_alu x y _
theorem addReg (x y : RegIx) : Statement (.addReg x y) := dispatchKey_alu x y _
theorem subReg (x y : RegIx) : Statement (.subReg x y) := dispatchKey_alu x y _
theorem shr (x : RegIx) : Statement (.shr x) := dispatchKey_alu x 0 _
theorem subnReg (x y : RegIx) : Statement (.subnReg x y) := dispatchKey_alu x y _
theorem shl (x : RegIx) : Statement (.shl x) := dispatchKey_alu x 0 _
theorem sneReg (x y : RegIx) : Statement (.sneReg x y) := by
  show dispatchKey (encXyn 0x9 x y 0) = _
  rw [encXyn_eq]; exact dispatchKey_xkk _ _ _ (by decide) (by decide) (by decide) (by decide)
theorem ldI (nnn : Word) : Statement (.ldI nnn) :=
  dispatchKey_nnn _ _ (by decide) (by decide) (by decide) (by decide)
theorem jpV0 (nnn : Word) : Statement (.jpV0 nnn) :=
  dispatchKey_nnn _ _ (by decide) (by decide) (by decide) (by decide)
theorem rnd (x : RegIx) (kk : Byte) : Statement (.rnd x kk) :=
  dispatchKey_xkk _ _ _ (by decide) (by decide) (by decide) (by decide)
theorem drw (x y : RegIx) (n : Nat) : Statement (.drw x y n) := by
  show dispatchKey (encXyn 0xD x y (BitVec.ofNat 4 n)) = _
  rw [encXyn_eq]; exact dispatchKey_xkk _ _ _ (by decide) (by decide) (by decide) (by decide)
theorem skp (x : RegIx) : Statement (.skp x) := dispatchKey_func _ x _ (.inl rfl)
theorem sknp (x : RegIx) : Statement (.sknp x) := dispatchKey_func _ x _ (.inl rfl)
theorem ldVxDt (x : RegIx) : Statement (.ldVxDt x) := dispatchKey_func _ x _ (.inr rfl)
theorem ldVxK (x : RegIx) : Statement (.ldVxK x) := dispatchKey_func _ x _ (.inr rfl)
theorem ldDtVx (x : RegIx) : Statement (.ldDtVx x) := dispatchKey_func _ x _ (.inr rfl)
theorem ldStVx (x : RegIx) : Statement (.ldStVx x) := dispatchKey_func _ x _ (.inr rfl)
theorem addI (x : RegIx) : Statement (.addI x) := dispatchKey_func _ x _ (.inr rfl)
theorem ldF (x : RegIx) : Statement (.ldF x) := dispatchKey_func _ x _ (.inr rfl)
theorem ldB (x : RegIx) : Statement (.ldB x) := dispatchKey_func _ x _ (.inr rfl)
theorem storeRegs (x : RegIx) : Statement (.storeRegs x) := dispatchKey_func _ x _ (.inr rfl)
theorem loadRegs (x : RegIx) : Statement (.loadRegs x) := dispatchKey_func _ x _ (.inr rfl)

end EncodedKey

end Sys2Proof.Laws
end

