-- ==== Sys2Proof/Tests/Slice0.lean ====
section
/-!
SUPPORT. The model's own tests. Expected results are the worked examples (W) and derived vectors (V-A to V-G) of
spec/95_test_vectors.md and the words of spec/30_encoding.md R64 and R66, never the model's own answers.
-/
namespace Sys2Proof.Tests
open Sys2Proof.Machine

/-- One step of the instruction word w from s. -/
def run (w : Nat) (s : State) : Result := step (s.withFetchWord 16 w)

/-- The step completes in a state with the property. -/
def gives (r : Result) (p : State → Bool) : Bool :=
  match r with
  | .next t => p t
  | .fault _ => false
  | .refused _ => false

/-- The step ends with this fault. -/
def faults (r : Result) (f : Fault) : Bool :=
  match r with
  | .fault g => g == f
  | .next _ => false
  | .refused _ => false

/-- The reset state with registers set. -/
def regs (l : List (RegIx × Byte)) : State := l.foldl (fun s p => s.setV p.1 p.2) State.reset

/-- The reset state with an input whose random byte is b. -/
def withRnd (b : Byte) : State := { State.reset with inputs := [{ ops := [], rnd := b }] }

/-- The reset state with call depth 1 and S[1]. -/
def inCall (a : Word) : State := { State.reset with sp := 1, stack := State.reset.stack.set 1 a }

/-- The start of the V-D rows: M[0x300] = 0xFF, M[0x301] = 0x81. -/
def sprites (s : State) : State := s.writeBytes 0x300 [0xFF, 0x81]

/-- The lit cells among the first n, as linear indices. -/
def lit (t : State) (from_ n : Nat) : List Nat :=
  ((List.range n).map (fun j => from_ + j)).filter (fun j => fbCell t.fb j)

/-! ## Well-formedness: an ill-formed term for each check -/

theorem test_wf_refuses_jp_wide : (Instr.jp 0x1000).wf = false := by decide
theorem test_wf_refuses_call_wide : (Instr.call 0xFFFF).wf = false := by decide
theorem test_wf_refuses_ldI_wide : (Instr.ldI 0x1000).wf = false := by decide
theorem test_wf_refuses_jpV0_wide : (Instr.jpV0 0x8000).wf = false := by decide
theorem test_wf_refuses_drw_16_rows : (Instr.drw 0 1 16).wf = false := by decide
theorem test_wf_admits_bounds : (Instr.jp 0xFFF).wf ∧ (Instr.drw 15 15 15).wf := by decide

/-! ## Decoding: words written out bit by bit from R64 and R66 -/

/-- Families 0 to 4; bits 11..8 of 0?E0 and 0?EE are ignored (R67). -/
theorem test_decode_flow :
    decodeWord 0b0000000011100000#16 = .ok .cls ∧ decodeWord 0b0000000111100000#16 = .ok .cls ∧
    decodeWord 0b0000000011101110#16 = .ok .ret ∧ decodeWord 0b0000000111101110#16 = .ok .ret ∧
    decodeWord 0b0001001000110100#16 = .ok (.jp 0x234) ∧
    decodeWord 0b0010001100000000#16 = .ok (.call 0x300) ∧
    decodeWord 0b0011001100010000#16 = .ok (.seImm 3 0x10) ∧
    decodeWord 0b0100001100010001#16 = .ok (.sneImm 3 0x11) := by decide

/-- Families 5, 6, 7, 9; the low nibble of 5xyN and 9xyN is ignored (R70). -/
theorem test_decode_pairs :
    decodeWord 0b0101000100100000#16 = .ok (.seReg 1 2) ∧ decodeWord 0b0101000100100001#16 = .ok (.seReg 1 2) ∧
    decodeWord 0b0110101001000010#16 = .ok (.ldImm 10 0x42) ∧
    decodeWord 0b0111000100000011#16 = .ok (.addImm 1 0x03) ∧
    decodeWord 0b1001000100100000#16 = .ok (.sneReg 1 2) ∧ decodeWord 0b1001000100101111#16 = .ok (.sneReg 1 2) := by
  decide

/-- Family 8; y of SHR and SHL is not used (R68). -/
theorem test_decode_alu :
    decodeWord 0b1000000100100000#16 = .ok (.ldReg 1 2) ∧ decodeWord 0b1000000100100001#16 = .ok (.orReg 1 2) ∧
    decodeWord 0b1000000100100010#16 = .ok (.andReg 1 2) ∧ decodeWord 0b1000000100100011#16 = .ok (.xorReg 1 2) ∧
    decodeWord 0b1000000100100100#16 = .ok (.addReg 1 2) ∧ decodeWord 0b1000000100100101#16 = .ok (.subReg 1 2) ∧
    decodeWord 0b1000010111110110#16 = .ok (.shr 5) ∧ decodeWord 0b1000000100100111#16 = .ok (.subnReg 1 2) ∧
    decodeWord 0b1000010111111110#16 = .ok (.shl 5) := by decide

/-- Families A, B, C, D. -/
theorem test_decode_index :
    decodeWord 0b1010001011110000#16 = .ok (.ldI 0x2F0) ∧ decodeWord 0b1011001100000000#16 = .ok (.jpV0 0x300) ∧
    decodeWord 0b1100001100001111#16 = .ok (.rnd 3 0x0F) ∧
    decodeWord 0b1101000100100101#16 = .ok (.drw 1 2 5) := by decide

/-- Families E and F (R69); F615 writes DT (R74). -/
theorem test_decode_func :
    decodeWord 0b1110001010011110#16 = .ok (.skp 2) ∧ decodeWord 0b1110001010100001#16 = .ok (.sknp 2) ∧
    decodeWord 0b1111000100000111#16 = .ok (.ldVxDt 1) ∧ decodeWord 0b1111001100001010#16 = .ok (.ldVxK 3) ∧
    decodeWord 0b1111011000010101#16 = .ok (.ldDtVx 6) ∧ decodeWord 0b1111011000011000#16 = .ok (.ldStVx 6) ∧
    decodeWord 0b1111001000011110#16 = .ok (.addI 2) ∧ decodeWord 0b1111010000101001#16 = .ok (.ldF 4) ∧
    decodeWord 0b1111000000110011#16 = .ok (.ldB 0) ∧ decodeWord 0b1111001001010101#16 = .ok (.storeRegs 2) ∧
    decodeWord 0b1111001001100101#16 = .ok (.loadRegs 2) := by decide

/-- W1: unknown words. -/
theorem test_decode_unknown :
    decodeWord 0x0000 = .error (.unknownOpcode 0x0000) ∧ decodeWord 0x0123 = .error (.unknownOpcode 0x0123) ∧
    decodeWord 0x8008 = .error (.unknownOpcode 0x8008) ∧ decodeWord 0xE1A2 = .error (.unknownOpcode 0xE1A2) ∧
    decodeWord 0xF1FF = .error (.unknownOpcode 0xF1FF) := by decide

theorem test_decode_bytes :
    decode [0x12, 0x34, 0x56] = .ok (.jp 0x234, [0x56]) ∧ decode [0x12] = .error .truncated ∧
    decode [] = .error .truncated ∧ decodeTableWord 16 0x1234 = some (.jp 0x234) := by decide

/-- No two rows of the handler table share a key, and there are 34 (R66). -/
theorem test_handler_keys : (handlerTable.map Prod.fst).Nodup ∧ handlerTable.length = 34 := by decide

/-! ## Control flow (V-A) -/

theorem test_jp : gives (run 0x1234 State.reset) (fun t => t.pc == 0x234) := by decide
theorem test_call : gives (run 0x2300 State.reset) (fun t => t.sp == 1 && t.getSlot 1 == 0x200 && t.pc == 0x300) := by
  decide
theorem test_call_full : faults (run 0x2300 { State.reset with sp := 15 }) (.stackOverflow 0x200 15) := by decide
theorem test_ret : gives (run 0x00EE (inCall 0x2F0)) (fun t => t.sp == 0 && t.pc == 0x2F2 && t.getSlot 1 == 0x2F0) := by
  decide
theorem test_ret_empty : faults (run 0x00EE State.reset) (.stackUnderflow 0x200 0) := by decide
theorem test_seImm : gives (run 0x3310 (regs [(3, 0x10)])) (fun t => t.pc == 0x204) := by decide
theorem test_seImm_not : gives (run 0x3311 (regs [(3, 0x10)])) (fun t => t.pc == 0x202) := by decide
theorem test_sneImm : gives (run 0x4311 (regs [(3, 0x10)])) (fun t => t.pc == 0x204) := by decide
theorem test_sneImm_not : gives (run 0x4310 (regs [(3, 0x10)])) (fun t => t.pc == 0x202) := by decide
theorem test_seReg : gives (run 0x5121 (regs [(1, 7), (2, 7)])) (fun t => t.pc == 0x204) := by decide
theorem test_seReg_not : gives (run 0x5120 (regs [(1, 7), (2, 8)])) (fun t => t.pc == 0x202) := by decide
theorem test_sneReg : gives (run 0x9120 (regs [(1, 7), (2, 8)])) (fun t => t.pc == 0x204) := by decide
theorem test_sneReg_self : gives (run 0x9110 State.reset) (fun t => t.pc == 0x202) := by decide
theorem test_jpV0 : gives (run 0xB3FF (regs [(0, 0xFF)])) (fun t => t.pc == 0x4FE) := by decide
theorem test_jpV0_high : gives (run 0xBFFF (regs [(0, 1)])) (fun t => t.pc == 0x1000) := by decide

/-! ## Register arithmetic and logic (V-B) -/

theorem test_ldImm : gives (run 0x6A42 State.reset) (fun t => t.getV 10 == 0x42 && t.pc == 0x202) := by decide
theorem test_addImm_no_flag :
    gives (run 0x70FF (regs [(0, 2), (15, 0x55)])) (fun t => t.getV 0 == 1 && t.getV 15 == 0x55) := by decide
theorem test_addImm_vf : gives (run 0x7FFF (regs [(15, 2)])) (fun t => t.getV 15 == 1) := by decide
theorem test_ldReg : gives (run 0x8120 (regs [(2, 9)])) (fun t => t.getV 1 == 9) := by decide
theorem test_orReg :
    gives (run 0x8121 (regs [(1, 0x0F), (2, 0xF0), (15, 0x77)])) (fun t => t.getV 1 == 0xFF && t.getV 15 == 0x77) := by
  decide
theorem test_andReg : gives (run 0x8122 (regs [(1, 0x3C), (2, 0x0F)])) (fun t => t.getV 1 == 0x0C) := by decide
theorem test_xorReg : gives (run 0x8123 (regs [(1, 0x3C), (2, 0x0F)])) (fun t => t.getV 1 == 0x33) := by decide
theorem test_addReg_old_vf :
    gives (run 0x81F4 (regs [(1, 0x10), (15, 0xF0)])) (fun t => t.getV 1 == 0 && t.getV 15 == 1) := by decide
theorem test_addReg_into_vf : gives (run 0x8F14 (regs [(15, 0xFF), (1, 1)])) (fun t => t.getV 15 == 0) := by decide
theorem test_subReg_borrow :
    gives (run 0x8015 (regs [(0, 1), (1, 2)])) (fun t => t.getV 0 == 0xFF && t.getV 15 == 0) := by decide
theorem test_subReg_equal : gives (run 0x8015 (regs [(0, 1), (1, 1)])) (fun t => t.getV 0 == 0 && t.getV 15 == 1) := by
  decide
theorem test_shr : gives (run 0x8506 (regs [(5, 0x81)])) (fun t => t.getV 5 == 0x40 && t.getV 15 == 1) := by decide
theorem test_shr_vf : gives (run 0x8F06 (regs [(15, 3)])) (fun t => t.getV 15 == 1) := by decide
theorem test_subnReg : gives (run 0x8017 (regs [(0, 3), (1, 1)])) (fun t => t.getV 0 == 0xFE && t.getV 15 == 0) := by
  decide
theorem test_subnReg_hold :
    gives (run 0x8017 { regs [(0, 1), (1, 3)] with subnAdvancesPc := false })
      (fun t => t.getV 0 == 2 && t.getV 15 == 1 && t.pc == 0x200) := by decide
theorem test_shl : gives (run 0x850E (regs [(5, 0x81)])) (fun t => t.getV 5 == 2 && t.getV 15 == 1) := by decide
theorem test_shl_vf : gives (run 0x8F0E (regs [(15, 0xC0)])) (fun t => t.getV 15 == 0x80) := by decide

/-! ## Index and random (V-C) -/

theorem test_ldI : gives (run 0xA2F0 State.reset) (fun t => t.i == 0x2F0) := by decide
theorem test_addI_above : gives (run 0xF21E ((regs [(2, 1)]).setI 0x0FFF)) (fun t => t.i == 0x1000 && t.getV 15 == 0) := by
  decide
theorem test_addI_wraps : gives (run 0xF21E ((regs [(2, 1)]).setI 0xFFFF)) (fun t => t.i == 0) := by decide
theorem test_ldF : gives (run 0xF429 (regs [(4, 0x0A)])) (fun t => t.i == 0x032) := by decide
theorem test_ldF_unreduced : gives (run 0xF429 (regs [(4, 0xFF)])) (fun t => t.i == 0x4FB) := by decide
theorem test_rnd : gives (run 0xC30F (withRnd 0xB7)) (fun t => t.getV 3 == 0x07) := by decide

/-! ## Display (V-D) -/

theorem test_cls : gives (run 0x01E0 { State.reset with fb := fbFlip State.reset.fb 7 })
    (fun t => lit t 0 16 == [] && t.pc == 0x202) := by decide
theorem test_drw_spills_and_faults : gives (run 0xD011 ((sprites (regs [(0, 60)])).setI 0x300))
    (fun t => lit t 58 12 == [60, 61, 62, 63, 64, 65, 66, 67] && t.getV 15 == 0) ∧
    faults (run 0xD012 (State.reset.setI 0xFFF)) (.memoryOutOfRange 0x200 0x1000 .read) := by decide
theorem test_drw_collides :
    gives (run 0xD011 ((sprites { State.reset with fb := fbFlip (fbFlip State.reset.fb 0) 1 }).setI 0x301))
      (fun t => lit t 0 10 == [1, 7] && t.getV 15 == 1) := by decide

/-! ## Keypad and timers (V-E) -/

theorem test_skp : gives (run 0xE29E ((regs [(2, 7)]).setKey 7 true)) (fun t => t.pc == 0x204) := by decide
theorem test_skp_bad : faults (run 0xE29E (regs [(2, 16)])) (.keyIndexOutOfRange 0x200 16) := by decide
theorem test_sknp : gives (run 0xE2A1 (regs [(2, 7)])) (fun t => t.pc == 0x204) := by decide
theorem test_sknp_pressed : gives (run 0xE2A1 ((regs [(2, 7)]).setKey 7 true)) (fun t => t.pc == 0x202) := by decide
theorem test_ldVxK_waits :
    gives (run 0xF30A State.reset) (fun t => t.pc == 0x200 && t.awaitingKey && t.getV 3 == 0) := by decide
theorem test_ldVxK_lowest :
    gives (run 0xF30A ({ State.reset with awaitingKey := true }.setKey 9 true |>.setKey 4 true))
      (fun t => t.getV 3 == 4 && t.pc == 0x202 && !t.awaitingKey) := by decide
theorem test_ldVxDt : gives (run 0xF107 { State.reset with dt := 0x3C }) (fun t => t.getV 1 == 0x3C) := by decide
theorem test_ldDtVx : gives (run 0xF615 (regs [(6, 4)])) (fun t => t.dt == 4 && !t.awaitingKey) := by decide
theorem test_ldStVx : gives (run 0xF618 (regs [(6, 2)])) (fun t => t.st == 2 && t.soundOn) := by decide
theorem test_tick : ({ State.reset with dt := 0, st := 1 } : State).tick.st = 0 ∧
    ({ State.reset with dt := 0, st := 1 } : State).tick.dt = 0 := by decide
theorem test_setKey_refused : HostOp.answer State.reset (.setKey 16 true) = .refused .badKeyIndex ∧
    State.reset.setKey 16 true = State.reset := by decide
/-- R113, R114: the host's index is the key's own, not another one. -/
theorem test_setKey_index : (State.reset.setKey 3 true).keys[3] = true ∧ (State.reset.setKey 3 true).keys[12] = false ∧
    HostOp.answer (State.reset.setKey 3 true) (.isKeyPressed 3) = .key true ∧
    HostOp.answer (State.reset.setKey 3 true) (.isKeyPressed 12) = .key false := by decide
/-- R119: a completed step's code is 0, a faulting one's is its fault's. -/
theorem test_codes : resultCode (run 0x1234 State.reset) = some 0 ∧ resultCode (run 0x0000 State.reset) = some 1 ∧
    (HostOp.answer State.reset (.setKey 16 true)).code = 10 := by decide

/-- P5's start: a key arrives between two steps and ends the wait. -/
theorem test_host_key_lands :
    gives (run 0xF30A State.reset) (fun t =>
      gives (step { t with inputs := [{ ops := [.tick, .setKey 5 true], rnd := 0 }] })
        (fun u => u.getV 3 == 5 && u.pc == 0x202 && !u.awaitingKey)) := by decide

/-! ## Memory transfer (V-F) -/

theorem test_ldB : gives (run 0xF033 ((regs [(0, 255)]).setI 0x300))
    (fun t => t.readBytes 0x300 3 == [2, 5, 5] && t.i == 0x300) := by decide
theorem test_ldB_above : faults (run 0xF033 (State.reset.setI 0x1234)) (.memoryOutOfRange 0x200 0x1234 .write) := by
  decide
theorem test_storeRegs : gives (run 0xF255 ((regs [(0, 1), (1, 2), (2, 3), (3, 4)]).setI 0x400))
    (fun t => t.readBytes 0x400 4 == [1, 2, 3, 0] && t.i == 0x403) := by decide
theorem test_storeRegs_glyph : faults (run 0xFF55 (State.reset.setI 0x040)) (.glyphRegionWrite 0x200 0x040) := by
  decide
theorem test_loadRegs : gives (run 0xFF65 State.reset)
    (fun t => t.getV 0 == 0xF0 && t.getV 5 == 0x20 && t.getV 15 == 0xF0 && t.i == 0x010) := by decide
theorem test_loadRegs_above : faults (run 0xF265 (State.reset.setI 0xFFE)) (.memoryOutOfRange 0x200 0x1000 .read) := by
  decide

/-! ## Fetch and load (V-G) -/

theorem test_fetch_odd : faults (run 0x1234 { State.reset with pc := 0x201 }) (.invalidPc 0x201) := by decide
/-- V-G: 3585 bytes are too many, 3584 are not. -/
theorem test_load_bounds (bytes : List Byte) :
    (bytes.length = 3585 → loadError (some bytes) = some .romTooLarge) ∧
    (bytes.length = 3584 → loadError (some bytes) = none) := by
  constructor <;> intro h <;> simp [loadError, h, Config.entry, Config.memSize]

/-! ## Witnesses: states and operands that meet the hypotheses of the obligations, one per clause at its boundary -/

/-- The reset state with I set. -/
def atI (a : Word) : State := State.reset.setI a

/-- The reset state with SP set. -/
def depth (d : BitVec 4) : State := { State.reset with sp := d }

/-- The reset state with one word stored at 0x200. -/
def coded (w : Nat) : State := State.reset.withFetchWord 16 w

/-- The reset state with one cell lit. -/
def oneCell (j : Nat) : State := { State.reset with fb := fbFlip State.reset.fb j }

theorem witness_ZeroMemoryFetch : pcOk State.reset.deliver.pc = true ∧
    State.reset.deliver.readMem State.reset.deliver.pc.toNat = 0 ∧
    State.reset.deliver.readMem (State.reset.deliver.pc.toNat + 1) = 0 := by decide

theorem witness_LoadWritesOnlyTheRom : (List.replicate 3584 (0 : Byte)).length ≤ 3584 ∧
    3583 < (List.replicate 3584 (0 : Byte)).length ∧ 3584 < (List.replicate 3585 (0 : Byte)).length := by
  simp only [List.length_replicate]; omega

theorem witness_SetKey : 15 < 16 ∧ (14 < 16 ∧ 14 ≠ 15) ∧ (14 ≤ 15 ∧ 14 ≠ 15) ∧ 15 < 16 := by decide

theorem witness_EnvironmentInput :
    (∃ inp rest op ops, ({ State.reset with inputs := [{ ops := [.tick], rnd := 1 }] } : State).inputs = inp :: rest ∧
      inp.ops = op :: ops) ∧
    (∃ inp rest, (withRnd 1).inputs = inp :: rest ∧ inp.ops = []) ∧ State.reset.inputs = [] :=
  ⟨⟨_, _, _, _, rfl, rfl⟩, ⟨_, _, rfl, rfl⟩, rfl⟩

/-- The first and the last PC the fetch accepts. -/
theorem witness_StepRunsTheDecodedInstruction :
    ((coded 0x1234).deliver.pc.toNat % 2 = 0 ∧ 0x200 ≤ (coded 0x1234).deliver.pc.toNat ∧
      (coded 0x1234).deliver.pc.toNat ≤ 0xFFE ∧
      decode ((coded 0x1234).deliver.readBytes (coded 0x1234).deliver.pc.toNat 2) = .ok (.jp 0x234, [])) ∧
    decode ((State.withFetchWord { State.reset with pc := 0xFFE } 16 0x00E0).deliver.readBytes 0xFFE 2) =
      .ok (.cls, []) := by decide

theorem witness_InvalidPc : faults (run 0x1234 { State.reset with pc := 0x1FE }) (.invalidPc 0x1FE) ∧
    faults (run 0x1234 { State.reset with pc := 0x1000 }) (.invalidPc 0x1000) ∧
    gives (run 0x1234 { State.reset with pc := 0xFFE }) (fun t => t.pc == 0x234) := by decide

theorem witness_StepRaisesUnknownOpcode : pcOk (coded 0x8008).deliver.pc = true ∧
    unknownWord (coded 0x8008).deliver.fetchWord.toNat = true ∧
    unknownWord (coded 0x1234).deliver.fetchWord.toNat = false := by decide

theorem witness_DecodeOfEncode : (Instr.drw 15 15 15).wf = true ∧ (Instr.jpV0 0xFFF).wf = true := by decide

theorem witness_EncodeOfDecode : decodeWord 0x9AB7 = .ok (.sneReg 10 11) ∧ encode (.sneReg 10 11) = 0x9AB0 := by decide

theorem witness_addressBound : (0xFFF : Word).toNat ≤ 0xFFF := by decide

theorem witness_CallAndRet : (depth 14).sp ≠ 15 ∧ (depth 15).sp = 15 ∧ (depth 1).sp ≠ 0 ∧ (depth 0).sp = 0 := by decide

theorem witness_CallThenRet : ∃ t u : State, (depth 14).sp ≠ 15 ∧ exec (.call 0x300) (depth 14) = .next t ∧ u.sp = t.sp ∧
    u.stack = t.stack := ⟨_, _, by decide, rfl, rfl, rfl⟩

theorem witness_notVf : (14 : RegIx) ≠ vf := by decide

theorem witness_RandomByteConsumedOnlyByRnd : ∀ x kk, Instr.cls ≠ .rnd x kk := by intro x kk h; cases h

/-- 15 rows end at 0xFFF from 0xFF1 and one past it from 0xFF2; no row reads nothing wherever I points. -/
theorem witness_DrawBounds : ¬ (0 < 15 ∧ 0xFFF < (atI 0xFF1).i.toNat + 15 - 1) ∧
    (0 < 15 ∧ 0xFFF < (atI 0xFF2).i.toNat + 15 - 1) ∧ ¬ (0 < 0 ∧ 0xFFF < (atI 0xFFFF).i.toNat + 0 - 1) := by decide

/-- Glyph 0 at (0, 0): its bit at cell 0 is lit, its bit at cell 4 is not; cell 0 may have been lit before. -/
theorem witness_DrawCells : SpriteLights State.reset 0 0 1 0 ∧ ¬ SpriteLights State.reset 0 0 1 4 ∧
    SpriteLights (oneCell 0) 0 0 1 0 ∧ fbCell (oneCell 0).fb 0 = true := by
  refine ⟨⟨0, 0, by decide⟩, ?_, ⟨0, 0, by decide⟩, by decide⟩
  rintro ⟨r, c, hr, hc, hb, hj⟩
  have h0 : r = 0 := by omega
  have h4 : c = 4 := by subst h0; simpa using hj.symm
  subst h0 h4
  revert hb; decide

theorem witness_DrawingTwice : ∃ t u, exec (.drw 0 1 5) State.reset = .next t ∧ exec (.drw 0 1 5) t = .next u ∧
    (0 : RegIx) ≠ vf ∧ (1 : RegIx) ≠ vf := ⟨_, _, rfl, rfl, by decide, by decide⟩

theorem witness_KeySkips : ((regs [(2, 15)]).getV 2).toNat < 16 ∧ 15 < ((regs [(2, 16)]).getV 2).toNat := by decide

theorem witness_WaitForKey : ((State.reset.setKey 15 true).keys[(15 : RegIx).toNat] = true ∧
      ∀ j : RegIx, j.toNat < 15 → (State.reset.setKey 15 true).keys[j.toNat] = false) ∧
    (State.reset.setKey 0 true).keys[(0 : RegIx).toNat] = true ∧
    ∀ k : RegIx, State.reset.keys[k.toNat] = false := by decide

theorem witness_KeyWaitLasts :
    pcOk ({ coded 0xF30A with inputs := [{ ops := [], rnd := 9 }] } : State).pc = true ∧
    decodeWord ({ coded 0xF30A with inputs := [{ ops := [], rnd := 9 }] } : State).fetchWord = .ok (.ldVxK 3) ∧
    (∀ k : RegIx, (coded 0xF30A).keys[k.toNat] = false) ∧
    ∀ inp, inp ∈ [({ ops := [], rnd := 9 } : StepInput)] → inp.ops = [] := by
  refine ⟨by decide, by decide, by decide, ?_⟩
  intro inp h
  simp only [List.mem_singleton] at h
  subst h; rfl

/-- The first and last I of each clause. -/
theorem witness_BcdBounds : (0x50 ≤ (atI 0x50).i.toNat ∧ (atI 0xFFD).i.toNat + 2 ≤ 0xFFF) ∧
    0xFFF < (atI 0xFFE).i.toNat + 2 ∧ (atI 0x4F).i.toNat < 0x50 := by decide

theorem witness_BcdAtBounds : gives (run 0xF033 (atI 0x50)) (fun t => t.pc == 0x202) ∧
    gives (run 0xF033 (atI 0xFFD)) (fun t => t.pc == 0x202) ∧
    faults (run 0xF033 (atI 0xFFE)) (.memoryOutOfRange 0x200 0x1000 .write) ∧
    faults (run 0xF033 (atI 0x4F)) (.glyphRegionWrite 0x200 0x4F) := by decide

theorem witness_StoreAtBounds : gives (run 0xFF55 (atI 0x50)) (fun t => t.i == 0x60) ∧
    gives (run 0xFF55 (atI 0xFF0)) (fun t => t.i == 0x1000) ∧
    faults (run 0xFF55 (atI 0xFF1)) (.memoryOutOfRange 0x200 0x1000 .write) ∧
    gives (run 0xF055 (atI 0xFFF)) (fun t => t.i == 0x1000) ∧
    faults (run 0xF055 (atI 0x4F)) (.glyphRegionWrite 0x200 0x4F) := by decide

theorem witness_LoadAtBounds : gives (run 0xFF65 (atI 0xFF0)) (fun t => t.i == 0x1000) ∧
    faults (run 0xFF65 (atI 0xFF1)) (.memoryOutOfRange 0x200 0x1000 .read) ∧
    faults (run 0xF065 (atI 0xFFFF)) (.memoryOutOfRange 0x200 0xFFFF .read) := by decide

theorem witness_LoadAfterStore : ∃ t u : State, exec (.storeRegs 1) (atI 0x400) = .next t ∧ u.mem = t.mem ∧
    u.i = (atI 0x400).i ∧ (0 : RegIx).toNat < (1 : RegIx).toNat :=
  ⟨_, State.setI _ 0x400, rfl, rfl, rfl, by decide⟩

theorem witness_anyInstruction : ∃ t, exec .cls State.reset = .next t := ⟨_, rfl⟩

theorem witness_notRet : Instr.cls ≠ .ret := by decide

theorem witness_KeysAndTicks : ∃ f, coreStep State.reset = .fault f := ⟨.unknownOpcode 0 0x200, rfl⟩

theorem witness_Inv : (coded 0x1234).Inv := ⟨by decide, by decide, by decide, by decide, by decide⟩

theorem witness_StepKeepsInvariant : ∃ t, (coded 0x1234).Inv ∧ step (coded 0x1234) = .next t :=
  ⟨_, witness_Inv, rfl⟩

theorem witness_ReturnAddress : ∃ t, (inCall 0xFFE).Inv ∧ exec .ret (inCall 0xFFE) = .next t :=
  ⟨_, ⟨by decide, by decide, by decide, by decide, by decide⟩, rfl⟩

end Sys2Proof.Tests
end

section
/-!
SUPPORT. The meaning of every instruction in one form: a check, and the state left when the check passes, whose PC and
awaiting_key are named apart from everything else. Facts about all instructions, faults included, are facts about
these four functions, and `exec_eq_guarded` ties them to exec.
-/
namespace Sys2Proof.Machine

/-! ## The four parts of an instruction's meaning -/

/-- The check of SKP and SKNP (45_keypad_timer.md R105, R106). -/
def State.keyFault (s : State) (a : Byte) : Option Fault :=
  if s.keyAt a = none then some (.keyIndexOutOfRange s.pc a) else none

/-- The check an instruction makes before its first write (00_scope.md R9). -/
def checkOf : Instr → State → Option Fault
  | .call _, s => s.pushFault
  | .ret, s => s.popFault
  | .drw _ _ n, s => s.checkRead s.addrI n
  | .skp x, s => s.keyFault (s.getV x)
  | .sknp x, s => s.keyFault (s.getV x)
  | .ldB _, s => s.checkWrite s.addrI 3
  | .storeRegs x, s => s.checkWrite s.addrI (blockSize x)
  | .loadRegs x, s => s.checkRead s.addrI (blockSize x)
  | _, _ => none

/-- The next PC of a conditional skip (10_state.md R21). -/
def skipPc (pc : Word) (taken : Bool) : Word := if taken then pc + 4 else pc + 2

/-- The next PC by the instruction's class (10_state.md R21). -/
def nextPcOf : Instr → State → Word
  | .ret, s => s.getSlot s.sp + 2
  | .jp nnn, _ => nnn
  | .call nnn, _ => nnn
  | .jpV0 nnn, s => nnn + (s.getV 0).toWord
  | .seImm x kk, s => skipPc s.pc (s.getV x == kk)
  | .sneImm x kk, s => skipPc s.pc (s.getV x != kk)
  | .seReg x y, s => skipPc s.pc (s.getV x == s.getV y)
  | .sneReg x y, s => skipPc s.pc (s.getV x != s.getV y)
  | .skp x, s => skipPc s.pc (s.keyAt (s.getV x) == some true)
  | .sknp x, s => skipPc s.pc (s.keyAt (s.getV x) == some false)
  | .subnReg _ _, s => if s.subnAdvancesPc then s.pc + 2 else s.pc
  | .ldVxK _, s => if s.firstPressed = none then s.pc else s.pc + 2
  | _, s => s.pc + 2

/-- The instruction waits for a key (10_state.md R30). -/
def waitsForKey : Instr → State → Bool
  | .ldVxK _, s => s.firstPressed.isNone
  | _, _ => false

/-- Memory after a store of several bytes. -/
def memSetBytes (m : List Host.Cell) (base : Nat) : List Byte → List Host.Cell
  | [] => m
  | b :: bs => memSetBytes (memSet m base b) (base + 1) bs

/-- The registers after a load of V0..Vx from base (46_memory_transfer.md R117). Irreducible, so that comparing another
field of the loaded state by rfl does not evaluate the 16 registers. -/
@[irreducible] def loadedRegs (v : Vector Byte 16) (m : List Host.Cell) (x : RegIx) (base : Nat) : Vector Byte 16 :=
  Vector.ofFn (fun j : Fin 16 => if j.val ≤ x.toNat then memGet m (base + j.val) else v[j])

/-- What an instruction writes other than PC and awaiting_key; jumps and skips write nothing else. -/
def bodyOf : Instr → State → State
  | .cls, s => { s with fb := Vector.replicate 32 0 }
  | .ret, s => s.pop
  | .call _, s => s.push s.pc
  | .ldImm x kk, s => s.setV x kk
  | .addImm x kk, s => s.setV x (s.getV x + kk)
  | .ldReg x y, s => s.setV x (s.getV y)
  | .orReg x y, s => s.setV x (s.getV x ||| s.getV y)
  | .andReg x y, s => s.setV x (s.getV x &&& s.getV y)
  | .xorReg x y, s => s.setV x (s.getV x ^^^ s.getV y)
  | .addReg x y, s => s.setFlagThenV (carryFlag (s.getV x) (s.getV y)) x (s.getV x + s.getV y)
  | .subReg x y, s => s.setFlagThenV (notBorrowFlag (s.getV x) (s.getV y)) x (s.getV x - s.getV y)
  | .shr x, s => s.setFlagThenV (lowBitFlag (s.getV x)) x (s.getV x >>> 1)
  | .subnReg x y, s => s.setFlagThenV (notBorrowFlag (s.getV y) (s.getV x)) x (s.getV y - s.getV x)
  | .shl x, s => s.setFlagThenV (highBitFlag (s.getV x)) x (s.getV x <<< 1)
  | .ldI nnn, s => s.setI nnn
  | .addI x, s => s.setI (s.i + (s.getV x).toWord)
  | .ldF x, s => s.setI (glyphAddr (s.getV x))
  | .rnd x kk, s => s.setV x (s.rnd &&& kk)
  | .drw x y n, s =>
    { s with fb := (s.blit (s.getV x) (s.getV y) (s.sprite n)).fb }.setV vf
      (flagByte (s.blit (s.getV x) (s.getV y) (s.sprite n)).collided)
  | .ldVxDt x, s => s.setV x s.dt
  | .ldVxK x, s => s.setV x ((s.firstPressed.map (BitVec.setWidth 8)).getD (s.getV x))
  | .ldDtVx x, s => s.setDt (s.getV x)
  | .ldStVx x, s => s.setSt (s.getV x)
  | .ldB x, s => { s with mem := memSetBytes s.mem s.addrI (digits (s.getV x)) }
  | .storeRegs x, s =>
    { s with mem := memSetBytes s.mem s.addrI (s.regBlock x) }.setI (s.pastBlock x)
  | .loadRegs x, s => { s with v := loadedRegs s.v s.mem x s.addrI }.setI (s.pastBlock x)
  | _, s => s

/-- The state an instruction leaves when its check passes. -/
def resultOf (i : Instr) (s : State) : State :=
  { bodyOf i s with pc := nextPcOf i s, awaitingKey := waitsForKey i s }

/-! ## The tie to exec -/

/-- A skip writes PC and awaiting_key. -/
theorem State.skipIf_eq (s : State) (c : Bool) :
    s.skipIf c = { s with pc := skipPc s.pc c, awaitingKey := false } := by cases c <;> rfl

/-- SUBN's advance writes PC and awaiting_key. -/
theorem State.advanceSubn_eq (s : State) :
    s.advanceSubn = { s with pc := s.advanceSubn.pc, awaitingKey := false } := by
  unfold State.advanceSubn; split <;> rfl

/-- A store of several bytes writes memory. -/
theorem State.writeBytes_eq (s : State) (base : Nat) (l : List Byte) :
    s.writeBytes base l = { s with mem := memSetBytes s.mem base l } := by
  induction l generalizing s base with
  | nil => rfl
  | cons b l ih => exact ih _ _

/-- A load of a block of registers writes the registers. -/
theorem State.loadBlock_eq (s : State) (x : RegIx) (base : Nat) :
    s.loadBlock x base = { s with v := loadedRegs s.v s.mem x base } := by
  unfold loadedRegs; rfl

/-- Writing back what a register holds changes nothing. -/
@[simp] theorem State.setV_getV_self (s : State) (x : RegIx) : s.setV x (s.getV x) = s := by
  unfold State.setV State.getV
  rw [Vector.set_getElem_self]

/-- A skip on a key checks the key's index, and is taken when the key is in the wanted state. -/
theorem skipOnKey_eq (x : RegIx) (want : Bool) (s : State) :
    skipOnKey x want s = guarded (s.keyFault (s.getV x)) (s.skipIf (s.keyAt (s.getV x) == some want)) := by
  unfold skipOnKey State.keyFault
  cases h : s.keyAt (s.getV x) with
  | none => rfl
  | some pressed => rfl

/-- Every instruction makes its check and then leaves its result. -/
theorem exec_eq_guarded (i : Instr) (s : State) : exec i s = guarded (checkOf i s) (resultOf i s) := by
  cases i with
  | seImm | sneImm | seReg | sneReg => exact congrArg _ (s.skipIf_eq _)
  | skp x => exact (skipOnKey_eq x true s).trans (congrArg _ (s.skipIf_eq _))
  | sknp x => exact (skipOnKey_eq x false s).trans (congrArg _ (s.skipIf_eq _))
  | subnReg =>
    show Host.Outcome.next (State.advanceSubn _) = _
    rw [State.advanceSubn_eq, State.advanceSubn_pc]; rfl
  | ldVxK x =>
    show execLdVxK x s = .next (resultOf (.ldVxK x) s)
    cases h : s.firstPressed <;> simp [execLdVxK, resultOf, bodyOf, nextPcOf, waitsForKey, h] <;> rfl
  | ldB x =>
    show guarded _ (State.advance _) = _
    rw [State.writeBytes_eq]; rfl
  | storeRegs x =>
    show guarded _ (State.advance (State.setI _ _)) = _
    rw [State.writeBytes_eq]; rfl
  | loadRegs x =>
    show guarded _ (State.advance (State.setI _ _)) = _
    rw [State.loadBlock_eq]; rfl
  | _ => rfl

/-- An instruction completes exactly when its check passes, in its result. -/
theorem exec_eq_next {i : Instr} {s t : State} : exec i s = .next t ↔ checkOf i s = none ∧ resultOf i s = t := by
  rw [exec_eq_guarded, guarded_eq_next]

/-- An instruction faults exactly with its check's fault. -/
theorem exec_eq_fault {i : Instr} {s : State} {f : Fault} : exec i s = .fault f ↔ checkOf i s = some f := by
  rw [exec_eq_guarded, guarded_eq_fault]

end Sys2Proof.Machine
end

section
/-!
SUPPORT. What an instruction leaves alone and what it does not read (spec/10_state.md, the columns written by and read
by), and the obligations on the units of the state.
-/
namespace Sys2Proof.Machine

/-! ## Units an instruction writes -/

theorem resultOf_stack (i : Instr) (s : State) : (resultOf i s).stack = s.stack ∨ ∃ nnn, i = .call nnn := by
  cases i with
  | call nnn => exact .inr ⟨nnn, rfl⟩
  | _ => exact .inl rfl

theorem resultOf_sp (i : Instr) (s : State) :
    (resultOf i s).sp = s.sp ∨ (∃ nnn, i = .call nnn) ∨ i = .ret := by
  cases i with
  | call nnn => exact .inr (.inl ⟨nnn, rfl⟩)
  | ret => exact .inr (.inr rfl)
  | _ => exact .inl rfl

theorem resultOf_dt (i : Instr) (s : State) : (resultOf i s).dt = s.dt ∨ ∃ x, i = .ldDtVx x := by
  cases i with
  | ldDtVx x => exact .inr ⟨x, rfl⟩
  | _ => exact .inl rfl

theorem resultOf_st (i : Instr) (s : State) : (resultOf i s).st = s.st ∨ ∃ x, i = .ldStVx x := by
  cases i with
  | ldStVx x => exact .inr ⟨x, rfl⟩
  | _ => exact .inl rfl

theorem resultOf_fb (i : Instr) (s : State) :
    (resultOf i s).fb = s.fb ∨ i = .cls ∨ ∃ x y n, i = .drw x y n := by
  cases i with
  | cls => exact .inr (.inl rfl)
  | drw x y n => exact .inr (.inr ⟨x, y, n, rfl⟩)
  | _ => exact .inl rfl

theorem resultOf_mem (i : Instr) (s : State) :
    (resultOf i s).mem = s.mem ∨ ∃ x, i = .ldB x ∨ i = .storeRegs x := by
  cases i with
  | ldB x => exact .inr ⟨x, .inl rfl⟩
  | storeRegs x => exact .inr ⟨x, .inr rfl⟩
  | _ => exact .inl rfl

theorem resultOf_i (i : Instr) (s : State) :
    (resultOf i s).i = s.i ∨
      ∃ x nnn, i = .ldI nnn ∨ i = .addI x ∨ i = .ldF x ∨ i = .storeRegs x ∨ i = .loadRegs x := by
  cases i with
  | ldI nnn => exact .inr ⟨0, nnn, by simp⟩
  | addI x | ldF x | storeRegs x | loadRegs x => exact .inr ⟨x, 0, by simp⟩
  | _ => exact .inl rfl

@[simp] theorem resultOf_keys (i : Instr) (s : State) : (resultOf i s).keys = s.keys := by cases i <;> rfl

@[simp] theorem resultOf_subnAdvancesPc (i : Instr) (s : State) :
    (resultOf i s).subnAdvancesPc = s.subnAdvancesPc := by cases i <;> rfl

@[simp] theorem resultOf_rnd (i : Instr) (s : State) : (resultOf i s).rnd = s.rnd := by cases i <;> rfl

@[simp] theorem resultOf_inputs (i : Instr) (s : State) : (resultOf i s).inputs = s.inputs := by cases i <;> rfl

@[simp] theorem resultOf_freeIx (i : Instr) (s : State) : (resultOf i s).freeIx = s.freeIx := by cases i <;> rfl

/-- Settles O52: each unit's cases of exec, one lemma per unit. -/
theorem unitsWrittenOnlyByTheirInstructions : Obligations.UnitsWrittenOnlyByTheirInstructions := by
  intro i s t h
  obtain ⟨-, rfl⟩ := exec_eq_next.1 h
  exact ⟨(resultOf_stack i s).resolve_left, (resultOf_sp i s).resolve_left, (resultOf_dt i s).resolve_left,
    (resultOf_st i s).resolve_left, (resultOf_fb i s).resolve_left, resultOf_keys i s,
    (resultOf_mem i s).resolve_left, (resultOf_i i s).resolve_left, resultOf_subnAdvancesPc i s,
    resultOf_rnd i s, resultOf_inputs i s, resultOf_freeIx i s⟩

/-! ## General registers -/

theorem State.getV_setV_of_notMem {s : State} {x r : RegIx} {b : Byte} (h : r ∉ [x]) :
    (s.setV x b).getV r = s.getV r := by
  rw [State.getV_setV, if_neg (by simpa using h)]

theorem State.getV_setFlagThenV_of_notMem {s : State} {x r : RegIx} {f b : Byte} (h : r ∉ [x, vf]) :
    (s.setFlagThenV f x b).getV r = s.getV r := by
  simp only [List.mem_cons, List.not_mem_nil, or_false, not_or] at h
  rw [State.getV_setFlagThenV, if_neg h.1, if_neg h.2]

/-- Fx65 writes V0..Vx (10_state.md R18). -/
theorem mem_writtenRegs_loadRegs {x r : RegIx} : r ∈ writtenRegs (.loadRegs x) ↔ r ≤ x := by
  simp only [writtenRegs, List.mem_map, List.mem_range, BitVec.le_def]
  constructor
  · rintro ⟨j, hj, rfl⟩
    have := x.isLt
    rw [BitVec.toNat_ofNat]; omega
  · intro h
    exact ⟨r.toNat, by omega, by simp⟩

theorem resultOf_getV {i : Instr} {r : RegIx} (h : r ∉ writtenRegs i) (s : State) :
    (resultOf i s).getV r = s.getV r := by
  cases i with
  | ldImm | addImm | ldReg | orReg | andReg | xorReg | rnd | ldVxDt | ldVxK | drw =>
    exact State.getV_setV_of_notMem h
  | addReg | subReg | shr | subnReg | shl => exact State.getV_setFlagThenV_of_notMem h
  | loadRegs x =>
    rw [mem_writtenRegs_loadRegs] at h
    show State.getV { s with v := loadedRegs s.v s.mem x s.addrI } r = _
    rw [← State.loadBlock_eq, State.getV_loadBlock, if_neg h]
  | _ => rfl

/-- Settles O51: a register outside the instruction's row of R18 is read as before. -/
theorem registersWrittenOnlyAsTabled : Obligations.RegistersWrittenOnlyAsTabled := by
  intro i s t h r hr
  obtain ⟨-, rfl⟩ := exec_eq_next.1 h
  exact resultOf_getV hr s

/-! ## State an instruction does not read -/

theorem mapNext_guarded (f : State → State) (c : Option Fault) (b : State) :
    mapNext f (guarded c b) = guarded c (f b) := by cases c <;> rfl

/-- No check reads a stack slot, ST or awaiting_key. -/
theorem checkOf_unread (i : Instr) (s : State) (slots : Vector Word 16) (b : Byte) (a : Bool) :
    checkOf i { s with stack := slots, st := b, awaitingKey := a } = checkOf i s := by
  cases i <;> rfl

/-- Only RET reads a stack slot (10_state.md R23). -/
theorem resultOf_withStack {i : Instr} (hi : i ≠ .ret) (s : State) (slots z : Vector Word 16) :
    { resultOf i { s with stack := slots } with stack := z } = { resultOf i s with stack := z } := by
  cases i with
  | ret => exact absurd rfl hi
  | _ => rfl

/-- No instruction reads ST (10_state.md R27). -/
theorem resultOf_withSt (i : Instr) (s : State) (b c : Byte) :
    { resultOf i { s with st := b } with st := c } = { resultOf i s with st := c } := by
  cases i <;> rfl

/-- No instruction reads awaiting_key (10_state.md R30). -/
theorem resultOf_withAwaitingKey (i : Instr) (s : State) (a : Bool) :
    resultOf i { s with awaitingKey := a } = resultOf i s := by
  cases i <;> rfl

/-- Settles O53: the checks read neither, and the results agree up to what was replaced. -/
theorem unreadStateDoesNotMatter : Obligations.UnreadStateDoesNotMatter := by
  intro i s slots z b c
  simp only [exec_eq_guarded, mapNext_guarded]
  refine ⟨fun hi => ?_, ?_⟩
  · exact congrArg₂ guarded (checkOf_unread i s slots s.st s.awaitingKey) (resultOf_withStack hi s slots z)
  · exact congrArg₂ guarded (checkOf_unread i s s.stack b s.awaitingKey) (resultOf_withSt i s b c)

/-! ## The wait for a key -/

/-- An instruction waits exactly if it is Fx0A and no key is pressed (10_state.md R30, 45_keypad_timer.md R107). -/
theorem waitsForKey_iff {i : Instr} {s : State} :
    waitsForKey i s = true ↔ (∃ x, i = .ldVxK x) ∧ ∀ k : RegIx, s.keys[k.toNat] = false := by
  cases i with
  | ldVxK x =>
    rw [← State.firstPressed_none, waitsForKey, Option.isNone_iff_eq_none]
    exact ⟨fun h => ⟨⟨x, rfl⟩, h⟩, And.right⟩
  | _ => simp [waitsForKey]

/-- Settles O56: awaiting_key of a step's result says whether its instruction waits. -/
theorem awaitingKeyMarksTheWait : Obligations.AwaitingKeyMarksTheWait := by
  refine ⟨rfl, fun s t h => ?_, fun i s a => ?_⟩
  · obtain ⟨-, i, hdecode, hexec⟩ := coreStep_next h
    obtain ⟨-, rfl⟩ := exec_eq_next.1 hexec
    simp only [hdecode, Except.ok.injEq]
    exact waitsForKey_iff
  · rw [exec_eq_guarded, exec_eq_guarded]
    exact congrArg₂ guarded (checkOf_unread i s s.stack s.st a) (resultOf_withAwaitingKey i s a)

/-! ## InvalidPc -/

theorem State.pushFault_ne_invalidPc (s : State) (pc : Word) : s.pushFault ≠ some (.invalidPc pc) := by
  unfold State.pushFault; split <;> simp

theorem State.popFault_ne_invalidPc (s : State) (pc : Word) : s.popFault ≠ some (.invalidPc pc) := by
  unfold State.popFault; split <;> simp

theorem State.keyFault_ne_invalidPc (s : State) (a : Byte) (pc : Word) : s.keyFault a ≠ some (.invalidPc pc) := by
  unfold State.keyFault; split <;> simp

theorem State.checkRead_ne_invalidPc (s : State) (base count : Nat) (pc : Word) :
    s.checkRead base count ≠ some (.invalidPc pc) := by
  rw [State.checkRead_eq]; split <;> simp

theorem State.checkWrite_ne_invalidPc (s : State) (base count : Nat) (pc : Word) :
    s.checkWrite base count ≠ some (.invalidPc pc) := by
  intro h
  obtain ⟨j, -, hj⟩ := List.exists_of_findSome?_eq_some h
  rw [writeFault_eq] at hj
  split_ifs at hj <;> simp at hj

/-- InvalidPc is the fetch's own fault: no instruction raises it. -/
theorem exec_ne_invalidPc (i : Instr) (s : State) (pc : Word) : exec i s ≠ .fault (.invalidPc pc) := by
  rw [Ne, exec_eq_fault]
  cases i with
  | call => exact s.pushFault_ne_invalidPc pc
  | ret => exact s.popFault_ne_invalidPc pc
  | skp | sknp => exact s.keyFault_ne_invalidPc _ pc
  | drw | loadRegs => exact s.checkRead_ne_invalidPc _ _ pc
  | ldB | storeRegs => exact s.checkWrite_ne_invalidPc _ _ pc
  | _ => intro h; cases h

/-- The fetch refuses an odd PC, one below ENTRY and one above 0xFFE (10_state.md R22). -/
theorem pcOk_eq_false_iff {pc : Word} :
    pcOk pc = false ↔ pc.toNat % 2 = 1 ∨ pc.toNat < 0x200 ∨ 0xFFE < pc.toNat := by
  rw [← Bool.not_eq_true, pcOk_iff]; omega

/-- Settles O15: of the three ways a step goes, only the fetch's check raises InvalidPc. -/
theorem invalidPcExactlyWhenPcUnfetchable : Obligations.InvalidPcExactlyWhenPcUnfetchable := by
  intro s
  rw [← pcOk_eq_false_iff, step]
  rcases coreStep_cases s.deliver with ⟨hp, h⟩ | ⟨hp, -, h⟩ | ⟨hp, i, -, h⟩ <;> rw [h, hp]
  · simp
  · simp
  · simp [exec_ne_invalidPc]

/-! ## Reset -/

/-- Settles O1: each field at its reset value, memory through the blank byte it reads as. -/
theorem resetStateHoldsResetValues : Obligations.ResetStateHoldsResetValues := by
  refine ⟨fun x => ?_, rfl, rfl, rfl, fun j => ?_, rfl, rfl, fun j => fbCell_clear j, fun k => ?_,
    fun a ha => ?_, fun a ha => blankByte_high ha, rfl, rfl⟩
  · simp [State.getV, State.reset]
  · simp [State.getSlot, State.reset]
  · simp [State.reset]
  · exact (blankByte_eq a).trans (if_pos ⟨a.zero_le, ha⟩)

end Sys2Proof.Machine
end

section
/-!
SUPPORT. The invariant State.Inv: it holds at reset, every host transaction keeps it, and so does every instruction the
decoder can answer (spec/10_state.md R22, R25; spec/20_memory.md R44).
-/

namespace Sys2Proof

/-! ## What the decoder answers -/

theorem handlerTable_wf (w : Word) : ∀ row ∈ handlerTable, (row.2 w).wf = true := by
  simp [handlerTable, handlersLow, handlersAlu, handlersHigh, handlersFunc, Instr.wf, addrFits_iff, countFits_iff,
    nnnOf_le, nOf_le]

/-- The decoder answers only instructions that have an encoding (30_encoding.md R63). -/
theorem decodeWord_wf {w : Word} {i : Instr} (h : decodeWord w = .ok i) : i.wf = true := by
  unfold decodeWord at h
  split at h
  · next build hrow =>
    obtain ⟨before, after, htable, -⟩ := List.lookup_eq_some_iff.1 hrow
    cases h
    exact handlerTable_wf w (dispatchKey w, build) (by simp [htable])
  · cases h

end Sys2Proof

namespace Sys2Proof.Machine

/-! ## The invariant and single fields -/

/-- The invariant reads memory, the stack, SP and PC only. -/
theorem State.Inv.congr {s t : State} (h : s.Inv) (hmem : t.mem = s.mem) (hstack : t.stack = s.stack)
    (hsp : t.sp = s.sp) (hpc : t.pc = s.pc) : t.Inv where
  canonical := hmem ▸ h.canonical
  glyphs a ha := (State.readMem_congr hmem a).trans (h.glyphs a ha)
  slots j := by rw [hsp, State.getSlot_congr hstack]; exact h.slots j
  slotZero := (State.getSlot_congr hstack 0).trans h.slotZero
  pcBound := hpc ▸ h.pcBound

/-- A store inside memory and above the glyph region keeps the invariant. -/
theorem State.Inv.writeBytes {s : State} (h : s.Inv) {base : Nat} {l : List Byte} (hbase : 80 ≤ base)
    (hend : base + l.length ≤ 4096) : (s.writeBytes base l).Inv where
  canonical := memWf_writeBytes h.canonical hend
  glyphs a ha := by
    rw [Config.glyphEnd_eq] at ha
    rw [State.readMem_writeBytes_outside s base l (.inl (by omega))]
    exact h.glyphs a ha
  slots j := by rw [State.writeBytes_sp, State.getSlot_congr (s.writeBytes_stack base l)]; exact h.slots j
  slotZero := (State.getSlot_congr (s.writeBytes_stack base l) 0).trans h.slotZero
  pcBound := by rw [State.writeBytes_pc]; exact h.pcBound

/-! ## Reset and the host's transactions -/

/-- Settles O3: nothing is stored, no slot is active. -/
theorem resetMeetsInvariant : Obligations.ResetMeetsInvariant where
  canonical := memWf_nil
  glyphs _ _ := rfl
  slots j hlow hhigh := absurd (hlow.trans hhigh) (by decide)
  slotZero := rfl
  pcBound := by decide

theorem State.Inv.apply {s : State} (h : s.Inv) (op : HostOp) : (HostOp.apply s op).Inv := by
  cases op with
  | reset => exact State.Inv.congr resetMeetsInvariant rfl rfl rfl rfl
  | load rom =>
    show (s.hostLoad rom).Inv
    rcases s.hostLoad_cases rom with ⟨heq, -⟩ | ⟨bytes, -, hlen, -, heq⟩ <;> rw [heq]
    · exact h
    · exact h.writeBytes (by omega) (by omega)
  | tick => exact h.congr rfl rfl rfl rfl
  | setKey k pressed =>
    show (s.setKey k pressed).Inv
    unfold State.setKey
    split
    · exact h.congr rfl rfl rfl rfl
    · exact h
  | isKeyPressed | render => exact h

theorem State.Inv.deliver {s : State} (h : s.Inv) : s.deliver.Inv := by
  cases hin : s.inputs with
  | nil => rw [State.deliver_nil hin]; exact h.congr rfl rfl rfl rfl
  | cons inp rest =>
    rw [State.deliver_cons hin]
    have hops : (applyOps { s with inputs := rest } inp.ops).Inv :=
      applyOps_induction (fun _ op hs => hs.apply op) inp.ops (h.congr rfl rfl rfl rfl)
    exact hops.congr rfl rfl rfl rfl

/-! ## The stack pointer -/

/-- A push has room exactly when SP is below 15 (10_state.md R25). -/
theorem State.pushFault_eq_none {s : State} : s.pushFault = none ↔ s.sp.toNat < 15 := by
  have := s.sp.isLt
  unfold State.pushFault
  split
  · next h => simp [h]
  · next h =>
    have : s.sp.toNat ≠ 15 := fun e => h (BitVec.eq_of_toNat_eq e)
    simp; omega

/-- A pop finds a slot exactly when SP is above 0 (10_state.md R25). -/
theorem State.popFault_eq_none {s : State} : s.popFault = none ↔ 0 < s.sp.toNat := by
  unfold State.popFault
  split
  · next h => simp [h]
  · next h =>
    have : s.sp.toNat ≠ 0 := fun e => h (BitVec.eq_of_toNat_eq e)
    simp; omega

/-- The slot a completing RET pops holds an address that can be fetched from. -/
theorem State.Inv.poppedSlot {s : State} (h : s.Inv) (hpop : s.popFault = none) :
    pcOk (s.getSlot s.sp) = true :=
  h.slots s.sp (State.popFault_eq_none.1 hpop) le_rfl

/-- The popped address plus 2 does not wrap (41_control_flow.md R79). -/
theorem toNat_add_two_of_pcOk {pc : Word} (h : pcOk pc = true) : (pc + 2).toNat = pc.toNat + 2 := by
  obtain ⟨-, -, hmax⟩ := pcOk_iff.1 h
  exact BitVec.toNat_add_of_lt (by simp; omega)

/-- Settles O58: the popped slot is an active one, so the invariant speaks of it. -/
theorem returnAddressIsEvenAndInRange : Obligations.ReturnAddressIsEvenAndInRange := by
  intro s t hinv h
  obtain ⟨hpop, rfl⟩ := exec_eq_next.1 h
  have hok : pcOk (s.getSlot s.sp) = true := hinv.poppedSlot hpop
  have hpc : (resultOf .ret s).pc.toNat = (s.getSlot s.sp).toNat + 2 := toNat_add_two_of_pcOk hok
  obtain ⟨heven, hmin, hmax⟩ := pcOk_iff.1 hok
  refine ⟨hok, hpc, ?_, ?_, ?_⟩ <;> omega

/-! ## The parts of the invariant after an instruction -/

/-- Memory after an instruction is that of a state that meets the invariant: the one before it, or the one its store
leaves, whose check kept it in memory and out of the glyph region (20_memory.md R48). -/
theorem resultOf_mem_of_inv {i : Instr} {s : State} (h : s.Inv) (hc : checkOf i s = none) :
    ∃ u : State, u.Inv ∧ (resultOf i s).mem = u.mem := by
  cases i with
  | ldB x =>
    obtain ⟨hbase, hend⟩ := (State.checkWrite_none (by decide) (by decide)).1 hc
    refine ⟨_, h.writeBytes (l := digits (s.getV x)) hbase hend, ?_⟩
    rw [State.writeBytes_eq]; rfl
  | storeRegs x =>
    obtain ⟨hbase, hend⟩ := (State.checkWrite_none (Nat.succ_pos _) x.isLt).1 hc
    refine ⟨_, h.writeBytes (l := s.regBlock x) hbase (by rw [State.regBlock_length]; exact hend), ?_⟩
    rw [State.writeBytes_eq]; rfl
  | _ => exact ⟨s, h, rfl⟩

/-- The active slots after an instruction: CALL adds its own address, RET drops one. -/
theorem resultOf_slots_of_inv {i : Instr} {s : State} (h : s.Inv) (hpc : pcOk s.pc = true)
    (hc : checkOf i s = none) (j : BitVec 4) (hlow : 1 ≤ j.toNat) (hhigh : j.toNat ≤ (resultOf i s).sp.toNat) :
    pcOk ((resultOf i s).getSlot j) = true := by
  cases i with
  | call nnn =>
    have hsp : s.sp.toNat < 15 := State.pushFault_eq_none.1 hc
    have hj : j.toNat ≤ (s.sp + 1).toNat := hhigh
    show pcOk ((s.push s.pc).getSlot j) = true
    rw [State.getSlot_push]
    split
    · exact hpc
    · next hne => exact h.slots j hlow (by bv_omega)
  | ret =>
    have hsp : 0 < s.sp.toNat := State.popFault_eq_none.1 hc
    have hj : j.toNat ≤ (s.sp - 1).toNat := hhigh
    exact h.slots j hlow (by bv_omega)
  | _ => exact h.slots j hlow hhigh

/-- CALL pushes above S[0] (10_state.md R25). -/
theorem resultOf_slotZero_of_inv {i : Instr} {s : State} (h : s.Inv) (hc : checkOf i s = none) :
    (resultOf i s).getSlot 0 = 0 := by
  cases i with
  | call nnn =>
    have hsp : s.sp.toNat < 15 := State.pushFault_eq_none.1 hc
    show (s.push s.pc).getSlot 0 = 0
    rw [State.getSlot_push, if_neg (by bv_omega)]
    exact h.slotZero
  | _ => exact h.slotZero

/-- A skip from a PC the fetch accepts goes no further than 0xFFE + 4. -/
theorem skipPc_le {pc : Word} (h : pcOk pc = true) (taken : Bool) : (skipPc pc taken).toNat ≤ 0x1002 := by
  obtain ⟨-, -, hmax⟩ := pcOk_iff.1 h
  unfold skipPc
  split <;> bv_omega

/-- The highest next PC is that of JP V0 with nnn = 0xFFF and V0 = 0xFF (10_state.md R22). -/
theorem nextPcOf_le {i : Instr} {s : State} (h : s.Inv) (hpc : pcOk s.pc = true) (hwf : i.wf = true)
    (hc : checkOf i s = none) : (nextPcOf i s).toNat ≤ 0x10FE := by
  have hadvance : (s.pc + 2).toNat ≤ 0x10FE := (skipPc_le hpc false).trans (by decide)
  cases i with
  | ret =>
    have hok := h.poppedSlot hc
    obtain ⟨-, -, hmax⟩ := pcOk_iff.1 hok
    exact (toNat_add_two_of_pcOk hok).trans_le (by omega)
  | jp nnn | call nnn => exact (addrFits_iff.1 hwf).trans (by decide)
  | jpV0 nnn =>
    have hnnn := addrFits_iff.1 hwf
    have hv := (s.getV 0).isLt
    show (nnn + (s.getV 0).toWord).toNat ≤ 0x10FE
    rw [BitVec.toNat_add, BitVec.toNat_setWidth]
    omega
  | seImm | sneImm | seReg | sneReg | skp | sknp => exact (skipPc_le hpc _).trans (by decide)
  | subnReg =>
    show (ite _ _ _ : Word).toNat ≤ _
    split
    · exact hadvance
    · exact h.pcBound
  | ldVxK =>
    show (ite _ _ _ : Word).toNat ≤ _
    split
    · exact h.pcBound
    · exact hadvance
  | _ => exact hadvance

/-- An instruction with an encoding, run at a PC the fetch accepts, keeps the invariant if it completes. -/
theorem State.Inv.exec {i : Instr} {s t : State} (h : s.Inv) (hpc : pcOk s.pc = true) (hwf : i.wf = true)
    (hexec : exec i s = .next t) : t.Inv := by
  obtain ⟨hc, rfl⟩ := exec_eq_next.1 hexec
  obtain ⟨u, hu, hmem⟩ := resultOf_mem_of_inv h hc
  exact {
    canonical := hmem ▸ hu.canonical
    glyphs := fun a ha => (State.readMem_congr hmem a).trans (hu.glyphs a ha)
    slots := resultOf_slots_of_inv h hpc hc
    slotZero := resultOf_slotZero_of_inv h hc
    pcBound := nextPcOf_le h hpc hwf hc }

/-- Settles O57: the delivered transactions keep the invariant, and so does the decoded instruction. -/
theorem stepKeepsInvariant : Obligations.StepKeepsInvariant := by
  intro s t hinv hstep
  obtain ⟨hpc, i, hdecode, hexec⟩ := coreStep_next hstep
  exact hinv.deliver.exec hpc (decodeWord_wf hdecode) hexec

end Sys2Proof.Machine
end

section
/-!
SUPPORT. The obligations on memory (spec/20_memory.md): the order of bytes in a fetched word, the check of a write, what a
store and a load leave alone, and the bytes of the glyph region.
-/

namespace Sys2Proof

/-- The byte at the lower address is the high one (20_memory.md R49). -/
theorem wordOfBytes_toNat (hi lo : Byte) : (wordOfBytes hi lo).toNat = hi.toNat * 256 + lo.toNat := by
  rw [wordOfBytes, BitVec.toNat_append, ← Nat.shiftLeft_add_eq_or_of_lt lo.isLt, Nat.shiftLeft_eq]

end Sys2Proof

namespace Sys2Proof.Machine

/-! ## Fetch -/

/-- Settles O14: the fetched word is the two bytes at PC, the high one first. -/
theorem fetchIsBigEndian : Obligations.FetchIsBigEndian := fun _ => wordOfBytes_toNat _ _

/-! ## The glyph table -/

/-- Settles O2: memory as reset left it reads as the glyph table. -/
theorem glyphBytesAfterReset : Obligations.GlyphBytesAfterReset := ⟨rfl, rfl, rfl, rfl⟩

/-! ## The check of a write -/

/-- The check of a block raises what its lowest failing address raises (20_memory.md R48). -/
theorem firstFault_eq_some {check : Nat → Option Fault} {base count : Nat} {f : Fault} :
    firstFault check base count = some f ↔
      ∃ j, j < count ∧ (∀ k, k < j → check (base + k) = none) ∧ check (base + j) = some f := by
  induction count with
  | zero => simp [firstFault]
  | succ n ih => rw [firstFault_succ, Option.or_eq_some_iff, ih, firstFault_eq_none, Nat.exists_lt_succ_right]

theorem writeFault_eq_none {pc : Word} {a : Nat} : writeFault pc a = none ↔ 0x50 ≤ a ∧ a ≤ 0xFFF := by
  rw [writeFault_eq]
  split_ifs <;> simp <;> omega

theorem writeFault_eq_some {pc : Word} {a : Nat} {f : Fault} :
    writeFault pc a = some f ↔
      (0xFFF < a ∧ f = .memoryOutOfRange pc a .write) ∨ (a < 0x50 ∧ f = .glyphRegionWrite pc a) := by
  rw [writeFault_eq]
  split_ifs with hhigh hlow
  · have : ¬ a < 0x50 := by omega
    simp [hhigh, this, eq_comm]
  · simp [hhigh, hlow, eq_comm]
  · simp [hhigh, hlow]

/-- Settles O49: the lowest failing address of the block, with the two ways an address can fail. -/
theorem writeCheckReportsLowestAddress : Obligations.WriteCheckReportsLowestAddress := by
  intro s base count
  simp only [State.checkWrite, firstFault_eq_some, firstFault_eq_none, writeFault_eq_none, writeFault_eq_some,
    implies_true, and_self]

/-! ## A store of several bytes -/

/-- A store of several bytes changes those bytes and nothing else. -/
theorem State.writeBytes_frame (s : State) (base : Nat) (l : List Byte) :
    Frame { base := base, count := l.length } s (s.writeBytes base l) :=
  ⟨fun r _ => s.getV_writeBytes base l r, fun _ => s.writeBytes_i base l, fun _ => s.writeBytes_sp base l,
    fun j _ => State.getSlot_congr (s.writeBytes_stack base l) j, fun _ => s.writeBytes_dt base l,
    fun _ => s.writeBytes_st base l, fun _ j => congrArg (fbCell · j) (s.writeBytes_fb base l),
    fun _ => s.writeBytes_keys base l, fun _ ha => s.readMem_writeBytes_outside base l ha,
    s.writeBytes_subnAdvancesPc base l, s.writeBytes_rnd base l, s.writeBytes_inputs base l, s.writeBytes_freeIx base l⟩

/-! ## A load of a ROM -/

/-- A load is accepted exactly up to ROM_MAX = 3584 bytes (20_memory.md R52). -/
theorem loadError_eq_none {bytes : List Byte} : loadError (some bytes) = none ↔ bytes.length ≤ 3584 := by
  rw [loadError_some]
  split <;> simp <;> omega

theorem loadError_of_long {bytes : List Byte} (h : 3584 < bytes.length) :
    loadError (some bytes) = some .romTooLarge := by
  rw [loadError_some, if_pos (by omega)]

/-- An accepted load stores the ROM at ENTRY (R52, R54). -/
theorem HostOp.apply_load_of_short (s : State) {bytes : List Byte} (h : bytes.length ≤ 3584) :
    HostOp.apply s (.load (some bytes)) = s.writeBytes 0x200 bytes := by
  simp [HostOp.apply, State.hostLoad, loadError_eq_none.2 h]

/-- A load that is too long changes nothing (R52). -/
theorem HostOp.apply_load_of_long (s : State) {bytes : List Byte} (h : 3584 < bytes.length) :
    HostOp.apply s (.load (some bytes)) = s := by
  simp [HostOp.apply, State.hostLoad, loadError_of_long h]

/-- Settles O6: an accepted load is a store of several bytes at ENTRY, any other load is the identity. -/
theorem loadWritesOnlyTheRom : Obligations.LoadWritesOnlyTheRom := by
  refine fun s bytes => ⟨fun hshort => ?_, fun hlong => ⟨?_, HostOp.apply_load_of_long s hlong⟩⟩
  · rw [HostOp.apply_load_of_short s hshort]
    refine ⟨?_, fun j hj => s.readMem_writeBytes_inside 0x200 bytes hj, s.writeBytes_frame 0x200 bytes,
      s.writeBytes_pc 0x200 bytes, s.writeBytes_awaitingKey 0x200 bytes⟩
    rw [HostOp.answer, loadError_eq_none.2 hshort]
  · rw [HostOp.answer, loadError_of_long hlong]

/-! ## What an instruction stores -/

/-- A completed LD [I], Vx has put each V[j] up to V[x] at I + j, all inside memory (46_memory_transfer.md R116). -/
theorem exec_storeRegs_readMem {x j : RegIx} {s t : State} (h : exec (.storeRegs x) s = .next t)
    (hj : j.toNat ≤ x.toNat) : s.addrI + j.toNat ≤ 0xFFF ∧ t.readMem (s.addrI + j.toNat) = s.getV j := by
  obtain ⟨hcheck, rfl⟩ := exec_next h
  obtain ⟨-, hend⟩ := (State.checkWrite_none (Nat.succ_pos _) x.isLt).1 hcheck
  have hlen : j.toNat < (s.regBlock x).length := by rw [State.regBlock_length]; omega
  refine ⟨by omega, ?_⟩
  exact (s.readMem_writeBytes_inside s.addrI (s.regBlock x) hlen).trans (s.regBlock_getElem x j hlen)

/-- Settles O48: the address I + r does not wrap, and the two bytes there are V[r] and V[r + 1]. -/
theorem storedBytesAreFetched : Obligations.StoredBytesAreFetched := by
  intro x r s t h hr
  have hx := x.isLt
  have hsucc : (r + 1).toNat = r.toNat + 1 := BitVec.toNat_add_of_lt (by simp; omega)
  obtain ⟨haddr, hhi⟩ := exec_storeRegs_readMem h hr.le
  obtain ⟨-, hlo⟩ := exec_storeRegs_readMem (j := r + 1) h (by omega)
  have hpc : (s.i + BitVec.ofNat 16 r.toNat).toNat = s.addrI + r.toNat := by
    unfold State.addrI at *
    rw [BitVec.toNat_add, BitVec.toNat_ofNat]; omega
  rw [hsucc, ← Nat.add_assoc] at hlo
  show wordOfBytes (t.readMem _) (t.readMem (_ + 1)) = _
  rw [hpc, hhi, hlo]

/-- Memory after a completed instruction: as before, or with bytes stored from I on, inside memory and above the glyph
region (20_memory.md R48). -/
theorem exec_mem {i : Instr} {s t : State} (h : exec i s = .next t) :
    t.mem = s.mem ∨
      ∃ l : List Byte, 0x50 ≤ s.addrI ∧ s.addrI + l.length ≤ 0x1000 ∧ t.mem = (s.writeBytes s.addrI l).mem := by
  cases i with
  | ldB x =>
    obtain ⟨hcheck, rfl⟩ := exec_next h
    obtain ⟨hbase, hend⟩ := (State.checkWrite_none (by decide) (by decide)).1 hcheck
    exact .inr ⟨digits (s.getV x), hbase, hend, rfl⟩
  | storeRegs x =>
    obtain ⟨hcheck, rfl⟩ := exec_next h
    obtain ⟨hbase, hend⟩ := (State.checkWrite_none (Nat.succ_pos _) x.isLt).1 hcheck
    exact .inr ⟨s.regBlock x, hbase, by rw [State.regBlock_length]; exact hend, rfl⟩
  | _ =>
    obtain ⟨-, rfl⟩ := exec_eq_next.1 h
    exact .inl rfl

/-! ## The glyph region -/

/-- A completed instruction leaves every byte of the glyph region as it was. -/
theorem exec_readMem_glyph {i : Instr} {s t : State} (h : exec i s = .next t) {a : Nat} (ha : a < 0x50) :
    t.readMem a = s.readMem a := by
  rcases exec_mem h with hmem | ⟨l, hbase, -, hmem⟩
  · exact State.readMem_congr hmem a
  · exact (State.readMem_congr hmem a).trans (s.readMem_writeBytes_outside s.addrI l (.inl (by omega)))

/-- A write of 1 to 16 bytes that starts in the glyph region is reported at its first byte. -/
theorem State.checkWrite_glyph {s : State} {base count : Nat} (hc : 0 < count) (hsmall : count ≤ 16)
    (hbase : base < 0x50) : s.checkWrite base count = some (.glyphRegionWrite s.pc base) := by
  rw [State.checkWrite_eq s hc hsmall, if_pos hbase]

/-- A read of at most 16 bytes that starts in the glyph region stays in memory. -/
theorem State.checkRead_glyph {s : State} {base count : Nat} (hsmall : count ≤ 16) (hbase : base < 0x50) :
    s.checkRead base count = none :=
  State.checkRead_none.2 (.inr (by omega))

/-- Settles O50: a completed store lies in 0x50..0xFFF, a store from the region fails its check, a read passes it. -/
theorem glyphRegionIsNeverMutated : Obligations.GlyphRegionIsNeverMutated := by
  refine ⟨fun i s t h a ha => exec_readMem_glyph h ha, fun x s hi => ⟨?_, ?_, ?_, fun y n hn => ?_⟩⟩
  · exact exec_eq_fault.2 (State.checkWrite_glyph (by decide) (by decide) hi)
  · exact exec_eq_fault.2 (State.checkWrite_glyph (Nat.succ_pos _) x.isLt hi)
  · exact ⟨_, exec_eq_next.2 ⟨State.checkRead_glyph x.isLt hi, rfl⟩⟩
  · exact ⟨_, exec_eq_next.2 ⟨State.checkRead_glyph (by omega) hi, rfl⟩⟩

end Sys2Proof.Machine
end

section
/-!
SUPPORT. The decoder and the encoder (spec/30_encoding.md) and the obligations on them. The dispatch key of a word is
its family and its function bits; decoding by format, the words without a row and the encoding of a decoded word follow
from that one fact.
-/

namespace Sys2Proof

/-! ## The dispatch key (R65) -/

theorem encXkk_and (op op' : BitVec 4) (x x' : RegIx) (kk kk' : Byte) :
    encXkk op x kk &&& encXkk op' x' kk' = encXkk (op &&& op') (x &&& x') (kk &&& kk') := by
  rw [encXkk, encXkk, encXkk, BitVec.and_append (x₁ := op ++ x), BitVec.and_append]

/-- The function bits of a word's low byte: the byte in the families 0, E and F, its low nibble in the family 8, none
elsewhere. -/
def keyLow (op : BitVec 4) (kk : Byte) : Byte :=
  if op ∈ [0x0, 0xE, 0xF] then kk else if op = 0x8 then kk &&& 0x0F else 0

theorem keyLow_func {op : BitVec 4} (hop : op ∈ [0x0, 0xE, 0xF]) (kk : Byte) : keyLow op kk = kk := if_pos hop

theorem keyLow_alu (y n : BitVec 4) : keyLow 0x8 (y ++ n) = 0#4 ++ n := by
  have hy : y &&& 0 = 0 := BitVec.and_zero
  have hn : n &&& 0xF = n := BitVec.and_allOnes
  exact BitVec.and_append.trans (congrArg₂ (· ++ ·) hy hn)

theorem keyLow_plain {op : BitVec 4} (hop : op ∉ [0x0, 0x8, 0xE, 0xF]) (kk : Byte) : keyLow op kk = 0 := by
  have hfunc : op ∉ [0x0, 0xE, 0xF] := fun h => hop (List.cons_subset_cons _ (List.subset_cons_self _ _) h)
  rw [keyLow, if_neg hfunc, if_neg (fun h => hop (by simp [h]))]

theorem dispatchKey_encXkk (op : BitVec 4) (x : RegIx) (kk : Byte) :
    dispatchKey (encXkk op x kk) = encXkk op 0 (keyLow op kk) := by
  have hop : op &&& 0xF = op := BitVec.and_allOnes
  have hx : x &&& 0 = 0 := BitVec.and_zero
  have hkk : kk &&& 0xFF = kk := BitVec.and_allOnes
  have hnone : kk &&& 0 = 0 := BitVec.and_zero
  unfold dispatchKey
  rw [opOf_encXkk]
  split_ifs with h0 h8 hf
  · refine (encXkk_and op 0x0 x 0 kk 0xFF).trans ?_
    rw [hx, hkk, h0, keyLow_func (by decide)]; rfl
  · refine (encXkk_and op 0xF x 0 kk 0x0F).trans ?_
    rw [hop, hx, h8]; rfl
  · refine (encXkk_and op 0xF x 0 kk 0xFF).trans ?_
    rw [hop, hx, hkk, keyLow_func (List.mem_cons_of_mem _ (by simpa using hf))]
  · have hplain : op ∉ [0x0, 0x8, 0xE, 0xF] := by
      simp only [List.mem_cons, List.not_mem_nil, or_false, h0, h8, false_or]; exact hf
    refine (encXkk_and op 0xF x 0 kk 0).trans ?_
    rw [hop, hx, hnone, keyLow_plain hplain]

/-- The key of a word is its family and its function bits. -/
theorem dispatchKey_eq (w : Word) : dispatchKey w = encXkk (opOf w) 0 (keyLow (opOf w) (kkOf w)) := by
  rw [← dispatchKey_encXkk _ (xOf w), encXkk_fields]

/-- A word is decoded by the row of its family and function bits (R66). -/
theorem decodeWord_of_row {w : Word} {op : BitVec 4} {low : Byte} {build : Word → Instr} (hop : opOf w = op)
    (hlow : keyLow op (kkOf w) = low) (hrow : handlerTable.lookup (encXkk op 0 low) = some build) :
    decodeWord w = .ok (build w) := by
  unfold decodeWord
  rw [dispatchKey_eq, hop, hlow, hrow]

/-! ## Decoding by format (R64)

f is the instruction the row builds from the format's fields; it may leave out a field. -/

section Formats

variable {op : BitVec 4}

theorem decodeWord_encNnn (f : Word → Instr) {nnn : Word} (hnnn : nnn.toNat ≤ 0xFFF)
    (hop : op ∉ [0x0, 0x8, 0xE, 0xF]) (hrow : handlerTable.lookup (encXkk op 0 0) = some fun w => f (nnnOf w)) :
    decodeWord (encNnn op nnn) = .ok (f nnn) := by
  rw [decodeWord_of_row (opOf_encNnn op nnn) (keyLow_plain hop _) hrow, nnnOf_encNnn op hnnn]

theorem decodeWord_encXkk (f : RegIx → Byte → Instr) (x : RegIx) (kk : Byte) (hop : op ∉ [0x0, 0x8, 0xE, 0xF])
    (hrow : handlerTable.lookup (encXkk op 0 0) = some fun w => f (xOf w) (kkOf w)) :
    decodeWord (encXkk op x kk) = .ok (f x kk) := by
  rw [decodeWord_of_row (opOf_encXkk op x kk) (keyLow_plain hop _) hrow, xOf_encXkk, kkOf_encXkk]

theorem decodeWord_encXyn (f : RegIx → RegIx → Nat → Instr) (x y : RegIx) (n : BitVec 4)
    (hop : op ∉ [0x0, 0x8, 0xE, 0xF])
    (hrow : handlerTable.lookup (encXkk op 0 0) = some fun w => f (xOf w) (yOf w) (nOf w)) :
    decodeWord (encXyn op x y n) = .ok (f x y n.toNat) := by
  rw [decodeWord_of_row (opOf_encXyn op x y n) (keyLow_plain hop _) hrow, xOf_encXyn, yOf_encXyn, nOf_encXyn]

/-- The families 0, E and F, whose function is the low byte. -/
theorem decodeWord_encFunc (f : RegIx → Instr) (x : RegIx) {kk : Byte} (hop : op ∈ [0x0, 0xE, 0xF])
    (hrow : handlerTable.lookup (encXkk op 0 kk) = some fun w => f (xOf w)) :
    decodeWord (encXkk op x kk) = .ok (f x) := by
  have hlow : keyLow op (kkOf (encXkk op x kk)) = kk := by rw [keyLow_func hop, kkOf_encXkk]
  rw [decodeWord_of_row (opOf_encXkk op x kk) hlow hrow, xOf_encXkk]

/-- The family 8, whose function is the low nibble. -/
theorem decodeWord_encAlu (f : RegIx → RegIx → Instr) (x y : RegIx) {n : BitVec 4}
    (hrow : handlerTable.lookup (encXkk 0x8 0 (0#4 ++ n)) = some fun w => f (xOf w) (yOf w)) :
    decodeWord (encXyn 0x8 x y n) = .ok (f x y) := by
  have hlow : keyLow 0x8 (kkOf (encXyn 0x8 x y n)) = 0#4 ++ n := by rw [encXyn_eq, kkOf_encXkk, keyLow_alu]
  rw [decodeWord_of_row (opOf_encXyn 0x8 x y n) hlow hrow, xOf_encXyn, yOf_encXyn]

end Formats

theorem decodeWord_encode {i : Instr} (hwf : i.wf = true) : decodeWord (encode i) = .ok i := by
  cases i with
  | cls => exact decodeWord_encFunc (fun _ => .cls) 0 (by decide) rfl
  | ret => exact decodeWord_encFunc (fun _ => .ret) 0 (by decide) rfl
  | jp => exact decodeWord_encNnn .jp (addrFits_iff.1 hwf) (by decide) rfl
  | call => exact decodeWord_encNnn .call (addrFits_iff.1 hwf) (by decide) rfl
  | seImm x kk => exact decodeWord_encXkk .seImm x kk (by decide) rfl
  | sneImm x kk => exact decodeWord_encXkk .sneImm x kk (by decide) rfl
  | seReg x y => exact decodeWord_encXyn (fun x y _ => .seReg x y) x y 0 (by decide) rfl
  | ldImm x kk => exact decodeWord_encXkk .ldImm x kk (by decide) rfl
  | addImm x kk => exact decodeWord_encXkk .addImm x kk (by decide) rfl
  | ldReg x y => exact decodeWord_encAlu .ldReg x y rfl
  | orReg x y => exact decodeWord_encAlu .orReg x y rfl
  | andReg x y => exact decodeWord_encAlu .andReg x y rfl
  | xorReg x y => exact decodeWord_encAlu .xorReg x y rfl
  | addReg x y => exact decodeWord_encAlu .addReg x y rfl
  | subReg x y => exact decodeWord_encAlu .subReg x y rfl
  | shr x => exact decodeWord_encAlu (fun x _ => .shr x) x 0 rfl
  | subnReg x y => exact decodeWord_encAlu .subnReg x y rfl
  | shl x => exact decodeWord_encAlu (fun x _ => .shl x) x 0 rfl
  | sneReg x y => exact decodeWord_encXyn (fun x y _ => .sneReg x y) x y 0 (by decide) rfl
  | ldI => exact decodeWord_encNnn .ldI (addrFits_iff.1 hwf) (by decide) rfl
  | jpV0 => exact decodeWord_encNnn .jpV0 (addrFits_iff.1 hwf) (by decide) rfl
  | rnd x kk => exact decodeWord_encXkk .rnd x kk (by decide) rfl
  | drw x y n =>
    have hcount : n ≤ 15 := countFits_iff.1 hwf
    have hn : (BitVec.ofNat 4 n).toNat = n := Nat.mod_eq_of_lt (by omega)
    exact (decodeWord_encXyn .drw x y _ (by decide) rfl).trans (by rw [hn])
  | skp x => exact decodeWord_encFunc .skp x (by decide) rfl
  | sknp x => exact decodeWord_encFunc .sknp x (by decide) rfl
  | ldVxDt x => exact decodeWord_encFunc .ldVxDt x (by decide) rfl
  | ldVxK x => exact decodeWord_encFunc .ldVxK x (by decide) rfl
  | ldDtVx x => exact decodeWord_encFunc .ldDtVx x (by decide) rfl
  | ldStVx x => exact decodeWord_encFunc .ldStVx x (by decide) rfl
  | addI x => exact decodeWord_encFunc .addI x (by decide) rfl
  | ldF x => exact decodeWord_encFunc .ldF x (by decide) rfl
  | ldB x => exact decodeWord_encFunc .ldB x (by decide) rfl
  | storeRegs x => exact decodeWord_encFunc .storeRegs x (by decide) rfl
  | loadRegs x => exact decodeWord_encFunc .loadRegs x (by decide) rfl

/-- Settles O20: the bytes are those of the encoded word, and each form is decoded by its format. -/
theorem decodeOfEncodeIsTheInstruction : Obligations.DecodeOfEncodeIsTheInstruction := by
  intro i rest hwf
  show decode (bytesOfWord (encode i) ++ rest) = _
  rw [decode_bytesOfWord, decodeWord_encode hwf]; rfl

/-- Settles O19: the encoder writes the formats with the ignored bits 0; where a format has ignored bits, the lemma on
the format has them free. -/
theorem decodeFollowsTheFormats : Obligations.DecodeFollowsTheFormats := by
  intro z x y n kk nnn
  have hencode (i : Instr) (hwf : i.wf = true) : decodeWord (encode i) = .ok i := decodeWord_encode hwf
  have hnnn : addrFits (nnn.setWidth 16) = true := addrFits_iff.2 (by have := nnn.isLt; simp; omega)
  have hformat (op : BitVec 4) : op ++ nnn = encNnn op (nnn.setWidth 16) := by simp [encNnn]
  simp only [hformat]
  refine ⟨⟨?cls, ?ret⟩,
    ⟨hencode (.jp _) hnnn, hencode (.call _) hnnn, hencode (.ldI _) hnnn, hencode (.jpV0 _) hnnn⟩,
    ⟨hencode (.seImm x kk) rfl, hencode (.sneImm x kk) rfl, hencode (.ldImm x kk) rfl, hencode (.addImm x kk) rfl,
      hencode (.rnd x kk) rfl⟩, ⟨?seReg, ?sneReg⟩,
    ⟨hencode (.ldReg x y) rfl, hencode (.orReg x y) rfl, hencode (.andReg x y) rfl, hencode (.xorReg x y) rfl,
      hencode (.addReg x y) rfl, hencode (.subReg x y) rfl, ?shr, hencode (.subnReg x y) rfl, ?shl⟩, ?drw,
    hencode (.skp x) rfl, hencode (.sknp x) rfl, hencode (.ldVxDt x) rfl, hencode (.ldVxK x) rfl,
    hencode (.ldDtVx x) rfl, hencode (.ldStVx x) rfl, hencode (.addI x) rfl, hencode (.ldF x) rfl,
    hencode (.ldB x) rfl, hencode (.storeRegs x) rfl, hencode (.loadRegs x) rfl⟩
  case cls => exact decodeWord_encFunc (fun _ => .cls) z (by decide) rfl
  case ret => exact decodeWord_encFunc (fun _ => .ret) z (by decide) rfl
  case seReg => exact decodeWord_encXyn (fun x y _ => .seReg x y) x y z (by decide) rfl
  case sneReg => exact decodeWord_encXyn (fun x y _ => .sneReg x y) x y z (by decide) rfl
  case shr => exact decodeWord_encAlu (fun x _ => .shr x) x z rfl
  case shl => exact decodeWord_encAlu (fun x _ => .shl x) x z rfl
  case drw => exact decodeWord_encXyn .drw x y n (by decide) rfl

/-- Settles O18: each word's row is found by evaluation. -/
theorem sampleWordsDecode : Obligations.SampleWordsDecode :=
  ⟨rfl, rfl, rfl, rfl, rfl, rfl, rfl, rfl, rfl, rfl, rfl, rfl⟩

/-! ## Fields of a word -/

/-- The low nibble of a word as bits. -/
def nibbleOf (w : Word) : BitVec 4 := w.extractLsb' 0 4

theorem ofNat_nOf (w : Word) : BitVec.ofNat 4 (nOf w) = nibbleOf w :=
  (BitVec.ofNat_toNat ..).trans (BitVec.setWidth_eq _)

theorem opOf_toNat (w : Word) : (opOf w).toNat = w.toNat / 4096 := by
  have := w.isLt
  rw [opOf, BitVec.extractLsb'_toNat, Nat.shiftRight_eq_div_pow]; omega

theorem kkOf_toNat (w : Word) : (kkOf w).toNat = w.toNat % 256 := BitVec.extractLsb'_toNat ..

theorem nibbleOf_toNat (w : Word) : (nibbleOf w).toNat = w.toNat % 16 := BitVec.extractLsb'_toNat ..

/-- The low byte is y and the low nibble. -/
theorem kkOf_eq_append (w : Word) : kkOf w = yOf w ++ nibbleOf w :=
  (BitVec.extractLsb'_append_extractLsb'_eq_extractLsb' (start₁ := 0) (len₂ := 4) (len₁ := 4) rfl).symm

/-- A word is the encoding of its fields, format XYN. -/
theorem encXyn_fields (w : Word) : encXyn (opOf w) (xOf w) (yOf w) (nibbleOf w) = w := by
  rw [encXyn_eq, ← kkOf_eq_append, encXkk_fields]

theorem encXkk_eq_iff {op : BitVec 4} {x : RegIx} {kk : Byte} {w : Word} :
    encXkk op x kk = w ↔ op = opOf w ∧ x = xOf w ∧ kk = kkOf w := by
  constructor
  · rintro rfl
    exact ⟨(opOf_encXkk ..).symm, (xOf_encXkk ..).symm, (kkOf_encXkk ..).symm⟩
  · rintro ⟨rfl, rfl, rfl⟩
    exact encXkk_fields w

/-! ## The keys of the table by family (R66) -/

theorem key_zero_unknown {kk : Byte} :
    encXkk 0x0 0 kk ∉ handlerTable.map Prod.fst ↔ kk ∉ ([0xE0, 0xEE] : List Byte) := by
  simp [handlerTable, handlersLow, handlersAlu, handlersHigh, handlersFunc, encXkk_eq_iff, opOf, xOf, kkOf]

theorem key_alu_unknown : ∀ {n : BitVec 4}, encXkk 0x8 0 (0#4 ++ n) ∉ handlerTable.map Prod.fst ↔
    n ∈ ([0x8, 0x9, 0xA, 0xB, 0xC, 0xD, 0xF] : List (BitVec 4)) := by decide

theorem key_e_unknown {kk : Byte} :
    encXkk 0xE 0 kk ∉ handlerTable.map Prod.fst ↔ kk ∉ ([0x9E, 0xA1] : List Byte) := by
  simp [handlerTable, handlersLow, handlersAlu, handlersHigh, handlersFunc, encXkk_eq_iff, opOf, xOf, kkOf]

theorem key_f_unknown {kk : Byte} :
    encXkk 0xF 0 kk ∉ handlerTable.map Prod.fst ↔
      kk ∉ ([0x07, 0x0A, 0x15, 0x18, 0x1E, 0x29, 0x33, 0x55, 0x65] : List Byte) := by
  simp [handlerTable, handlersLow, handlersAlu, handlersHigh, handlersFunc, encXkk_eq_iff, opOf, xOf, kkOf]

theorem key_plain_known : ∀ {op : BitVec 4}, op ∉ [0x0, 0x8, 0xE, 0xF] →
    encXkk op 0 0 ∈ handlerTable.map Prod.fst := by decide

/-- A word is decoded by a row whose key is the word's. -/
theorem decodeWord_eq_ok {w : Word} {i : Instr} (h : decodeWord w = .ok i) :
    ∃ row ∈ handlerTable, dispatchKey w = row.1 ∧ i = row.2 w := by
  unfold decodeWord at h
  split at h
  · next build hrow =>
    obtain ⟨before, after, htable, -⟩ := List.lookup_eq_some_iff.1 hrow
    cases h
    exact ⟨(dispatchKey w, build), by simp [htable], rfl, rfl⟩
  · cases h

/-- A word is refused exactly when its key is not in the table (R71). -/
theorem decodeWord_error_iff {w : Word} :
    (∃ e, decodeWord w = .error e) ↔ dispatchKey w ∉ handlerTable.map Prod.fst := by
  have hnone : handlerTable.lookup (dispatchKey w) = none ↔ dispatchKey w ∉ handlerTable.map Prod.fst := by
    simp only [List.lookup_eq_none_iff, bne_iff_ne, List.mem_map, not_exists, not_and]
    exact forall₂_congr fun _ _ => ne_comm
  rw [← hnone]
  unfold decodeWord
  cases handlerTable.lookup (dispatchKey w) <;> simp

end Sys2Proof

namespace Sys2Proof.Machine

/-! ## The unknown words (R71) -/

theorem mem_iff_toNat_mem {n : Nat} {b : BitVec n} {l : List (BitVec n)} : b ∈ l ↔ b.toNat ∈ l.map BitVec.toNat :=
  (List.mem_map_of_injective fun _ _ => BitVec.eq_of_toNat_eq).symm

/-- Settles O16: family by family, the keys the table lacks are those of the unknown words. -/
theorem decoderRefusesExactlyUnknownWords : Obligations.DecoderRefusesExactlyUnknownWords := by
  intro w
  rw [decodeWord_error_iff, dispatchKey_eq, unknownWord, ← opOf_toNat, ← kkOf_toNat, ← nibbleOf_toNat]
  by_cases h0 : opOf w = 0x0
  · rw [h0, keyLow_func (by decide), key_zero_unknown, mem_iff_toNat_mem]
    simp
  by_cases h8 : opOf w = 0x8
  · rw [h8, kkOf_eq_append, keyLow_alu, key_alu_unknown, mem_iff_toNat_mem]
    simp
  by_cases he : opOf w = 0xE
  · rw [he, keyLow_func (by decide), key_e_unknown, mem_iff_toNat_mem]
    simp
  by_cases hf : opOf w = 0xF
  · rw [hf, keyLow_func (by decide), key_f_unknown, mem_iff_toNat_mem]
    simp
  · have hplain : opOf w ∉ [0x0, 0x8, 0xE, 0xF] := by
      simp only [List.mem_cons, List.not_mem_nil, or_false, h0, h8, he, hf, not_false_eq_true]
    rw [keyLow_plain hplain]
    refine iff_of_false (not_not.2 (key_plain_known hplain)) ?_
    have hnum : (opOf w).toNat ≠ 0 ∧ (opOf w).toNat ≠ 8 ∧ (opOf w).toNat ≠ 14 ∧ (opOf w).toNat ≠ 15 := by
      rw [mem_iff_toNat_mem] at hplain
      simpa using hplain
    simp [hnum]

/-- UnknownOpcode is the decoder's own fault: no instruction raises it. -/
theorem exec_ne_unknownOpcode (i : Instr) (s : State) (w pc : Word) : exec i s ≠ .fault (.unknownOpcode w pc) := by
  rw [Ne, exec_eq_fault]
  cases i with
  | call =>
    show s.pushFault ≠ _
    simp [State.pushFault]
  | ret =>
    show s.popFault ≠ _
    simp [State.popFault]
  | skp | sknp =>
    show s.keyFault _ ≠ _
    simp [State.keyFault]
  | drw | loadRegs =>
    show s.checkRead _ _ ≠ _
    simp [State.checkRead_eq]
  | ldB | storeRegs =>
    show s.checkWrite _ _ ≠ _
    simp [State.checkWrite, firstFault_eq_some, writeFault_eq_some]
  | _ => exact nofun

/-- Settles O17: at a PC the fetch accepts, only the decoder's refusal raises UnknownOpcode. -/
theorem stepRaisesUnknownOpcode : Obligations.StepRaisesUnknownOpcode := by
  intro s hpc
  rw [← decoderRefusesExactlyUnknownWords, step]
  rcases coreStep_cases s.deliver with ⟨hbad, -⟩ | ⟨-, herror, h⟩ | ⟨-, i, hok, h⟩
  · rw [hpc] at hbad; cases hbad
  · exact iff_of_true h herror
  · rw [h, hok]
    exact iff_of_false (exec_ne_unknownOpcode i _ _ _) (by simp)

/-! ## The fetched bytes (20_memory.md R49) -/

theorem bytesOfWord_wordOfBytes (hi lo : Byte) : bytesOfWord (wordOfBytes hi lo) = [hi, lo] := by
  rw [bytesOfWord, wordOfBytes, BitVec.extractLsb'_append_eq_left, BitVec.extractLsb'_append_eq_right]

/-- Decoding the two bytes at PC is decoding the fetched word. -/
theorem decode_readBytes_pc (s : State) :
    decode (s.readBytes s.pc.toNat 2) = (decodeWord s.fetchWord).map (fun i => (i, [])) := by
  have hbytes : s.readBytes s.pc.toNat 2 = bytesOfWord s.fetchWord := (bytesOfWord_wordOfBytes _ _).symm
  rw [hbytes, ← decode_bytesOfWord, List.append_nil]

/-- Settles O13: of the three ways a step goes, the fetch's check and the decoder's answer leave the third. -/
theorem stepRunsTheDecodedInstruction : Obligations.StepRunsTheDecodedInstruction := by
  intro s i rest heven hmin hmax hdecode
  have hpc : pcOk s.deliver.pc = true := pcOk_iff.2 ⟨heven, hmin, hmax⟩
  rw [decode_readBytes_pc] at hdecode
  rcases coreStep_cases s.deliver with ⟨hbad, -⟩ | ⟨-, ⟨e, herror⟩, -⟩ | ⟨-, j, hok, h⟩
  · rw [hpc] at hbad; cases hbad
  · rw [herror] at hdecode; cases hdecode
  · rw [hok] at hdecode; cases hdecode; exact h

/-! ## A word without its ignored bits, by family (R67, R68, R70) -/

/-- The ignored bits by the fields of the word. -/
theorem ignoredBits_eq (w : Word) : ignoredBits w =
    if opOf w = 0x0 then encXkk 0 0xF 0
    else if opOf w ∈ [0x5, 0x9] then encXkk 0 0 0x0F
    else if opOf w = 0x8 ∧ nibbleOf w ∈ [0x6, 0xE] then encXkk 0 0 0xF0
    else encXkk 0 0 0 := by
  rw [ignoredBits, ← opOf_toNat, ← nibbleOf_toNat]
  simp only [List.mem_cons, List.not_mem_nil, or_false, ← BitVec.toNat_inj]; rfl

theorem and_not_encXkk (w : Word) (m : BitVec 4) (mk : Byte) :
    w &&& ~~~ encXkk 0 m mk = encXkk (opOf w) (xOf w &&& ~~~m) (kkOf w &&& ~~~mk) := by
  have hmask : ~~~ encXkk 0 m mk = encXkk 0xF (~~~m) (~~~mk) := by
    rw [encXkk, encXkk, BitVec.not_append (x := 0 ++ m), BitVec.not_append]; rfl
  have hop : opOf w &&& 0xF = opOf w := BitVec.and_allOnes
  conv_lhs => rw [hmask, ← encXkk_fields w, encXkk_and, hop]

theorem clearIgnored_zero {w : Word} (h : opOf w = 0x0) : w &&& ~~~ignoredBits w = encXkk (opOf w) 0 (kkOf w) := by
  have hx : xOf w &&& ~~~0xF = 0 := BitVec.and_zero
  have hkk : kkOf w &&& ~~~0 = kkOf w := BitVec.and_allOnes
  rw [ignoredBits_eq, if_pos h, and_not_encXkk, hx, hkk]

theorem clearIgnored_pair {w : Word} (h : opOf w ∈ [0x5, 0x9]) :
    w &&& ~~~ignoredBits w = encXyn (opOf w) (xOf w) (yOf w) 0 := by
  have h0 : opOf w ≠ 0x0 := fun e => absurd h (by rw [e]; decide)
  have hx : xOf w &&& ~~~0 = xOf w := BitVec.and_allOnes
  have hkk : kkOf w &&& ~~~0x0F = yOf w ++ 0#4 := by
    rw [kkOf_eq_append]
    exact BitVec.and_append.trans (congrArg₂ (· ++ ·) BitVec.and_allOnes BitVec.and_zero)
  rw [ignoredBits_eq, if_neg h0, if_pos h, and_not_encXkk, hx, hkk, encXyn_eq]; rfl

theorem clearIgnored_shift {w : Word} (h : opOf w = 0x8) (hn : nibbleOf w ∈ [0x6, 0xE]) :
    w &&& ~~~ignoredBits w = encXyn (opOf w) (xOf w) 0 (nibbleOf w) := by
  have hx : xOf w &&& ~~~0 = xOf w := BitVec.and_allOnes
  have hkk : kkOf w &&& ~~~0xF0 = 0#4 ++ nibbleOf w := by
    rw [kkOf_eq_append]
    exact BitVec.and_append.trans (congrArg₂ (· ++ ·) BitVec.and_zero BitVec.and_allOnes)
  rw [ignoredBits_eq, if_neg (by rw [h]; decide), if_neg (by rw [h]; decide), if_pos ⟨h, hn⟩, and_not_encXkk, hx, hkk,
    encXyn_eq]; rfl

theorem clearIgnored_none {w : Word} (h0 : opOf w ≠ 0x0) (hpair : opOf w ∉ [0x5, 0x9])
    (hshift : opOf w = 0x8 → nibbleOf w ∉ [0x6, 0xE]) : w &&& ~~~ignoredBits w = w := by
  have hx : xOf w &&& ~~~0 = xOf w := BitVec.and_allOnes
  have hkk : kkOf w &&& ~~~0 = kkOf w := BitVec.and_allOnes
  rw [ignoredBits_eq, if_neg h0, if_neg hpair, if_neg (not_and.2 hshift), and_not_encXkk, hx, hkk, encXkk_fields]

theorem clearIgnored_plain {w : Word} (h : opOf w ∉ [0x0, 0x5, 0x8, 0x9]) : w &&& ~~~ignoredBits w = w := by
  have hsub : [0x5, 0x9] ⊆ [0x0, 0x5, 0x8, (0x9 : BitVec 4)] := by decide
  exact clearIgnored_none (fun e => h (by simp [e])) (fun hpair => h (hsub hpair)) (fun e => absurd (by simp [e]) h)

/-! ## Encoding what was decoded (R76) -/

/-- The row gives an instruction that encodes to the word without its ignored bits, if it is the word's. -/
def RowEncodesBack (w : Word) (row : Word × (Word → Instr)) : Prop :=
  dispatchKey w = row.1 → encode (row.2 w) = w &&& ~~~ignoredBits w

section Rows

/-! A word with the key k: its family and function bits are those of k, by format. -/

variable {w k : Word} {op : BitVec 4} (hk : dispatchKey w = k) (hop : opOf k = op)
include hk hop

theorem opOf_of_key : opOf w = op := by
  rw [← hop, ← hk, dispatchKey_eq, opOf_encXkk]

theorem keyLow_of_key : keyLow op (kkOf w) = kkOf k := by
  rw [← opOf_of_key hk hop, ← hk, dispatchKey_eq, kkOf_encXkk]

theorem kkOf_of_key (h : op ∈ [0x0, 0xE, 0xF]) : kkOf w = kkOf k :=
  (keyLow_func h _).symm.trans (keyLow_of_key hk hop)

theorem nibbleOf_of_key {n : BitVec 4} (h : op = 0x8) (hn : kkOf k = 0#4 ++ n) : nibbleOf w = n := by
  have hlow : keyLow op (kkOf w) = kkOf k := keyLow_of_key hk hop
  rw [h, kkOf_eq_append, keyLow_alu, hn] at hlow
  exact (BitVec.append_right_inj _).1 hlow

theorem encNnn_of_key (h : op ∉ [0x0, 0x5, 0x8, 0x9]) : encNnn op (nnnOf w) = w &&& ~~~ignoredBits w := by
  rw [← opOf_of_key hk hop] at h ⊢
  rw [clearIgnored_plain h, encNnn_fields]

theorem encXkk_of_key (h : op ∉ [0x0, 0x5, 0x8, 0x9]) : encXkk op (xOf w) (kkOf w) = w &&& ~~~ignoredBits w := by
  rw [← opOf_of_key hk hop] at h ⊢
  rw [clearIgnored_plain h, encXkk_fields]

theorem encXyn_of_key (h : op ∉ [0x0, 0x5, 0x8, 0x9]) :
    encXyn op (xOf w) (yOf w) (BitVec.ofNat 4 (nOf w)) = w &&& ~~~ignoredBits w := by
  rw [← opOf_of_key hk hop] at h ⊢
  rw [clearIgnored_plain h, ofNat_nOf, encXyn_fields]

theorem encFunc_of_key {kk : Byte} (h : op ∈ [0xE, 0xF]) (hkk : kkOf k = kk) :
    encXkk op (xOf w) kk = w &&& ~~~ignoredBits w := by
  have hplain : ∀ op : BitVec 4, op ∈ [0xE, 0xF] → op ∉ [0x0, 0x5, 0x8, 0x9] := by decide
  rw [← hkk, ← kkOf_of_key hk hop (List.mem_cons_of_mem _ h)]
  exact encXkk_of_key hk hop (hplain op h)

theorem encZero_of_key {kk : Byte} (h : op = 0x0) (hkk : kkOf k = kk) :
    encXkk op 0 kk = w &&& ~~~ignoredBits w := by
  have hw : opOf w = op := opOf_of_key hk hop
  rw [clearIgnored_zero (hw.trans h), hw, kkOf_of_key hk hop (by simp [h]), hkk]

theorem encPair_of_key (h : op ∈ [0x5, 0x9]) : encXyn op (xOf w) (yOf w) 0 = w &&& ~~~ignoredBits w := by
  rw [← opOf_of_key hk hop] at h ⊢
  rw [clearIgnored_pair h]

theorem encAlu_of_key {n : BitVec 4} (h : op = 0x8) (hn : kkOf k = 0#4 ++ n) (hshift : n ∉ [0x6, 0xE]) :
    encXyn op (xOf w) (yOf w) n = w &&& ~~~ignoredBits w := by
  have hw : opOf w = op := opOf_of_key hk hop
  rw [← nibbleOf_of_key hk hop h hn] at hshift ⊢
  rw [clearIgnored_none (by rw [hw, h]; decide) (by rw [hw, h]; decide) (fun _ => hshift), ← hw, encXyn_fields]

theorem encShift_of_key {n : BitVec 4} (h : op = 0x8) (hn : kkOf k = 0#4 ++ n) (hshift : n ∈ [0x6, 0xE]) :
    encXyn op (xOf w) 0 n = w &&& ~~~ignoredBits w := by
  have hw : opOf w = op := opOf_of_key hk hop
  rw [← nibbleOf_of_key hk hop h hn] at hshift ⊢
  rw [clearIgnored_shift (hw.trans h) hshift, hw]

end Rows

theorem handlersLow_encodeBack (w : Word) : ∀ row ∈ handlersLow, RowEncodesBack w row := by
  simp only [handlersLow, List.forall_mem_cons]
  exact ⟨fun hk => encZero_of_key hk rfl rfl rfl, fun hk => encZero_of_key hk rfl rfl rfl,
    fun hk => encNnn_of_key hk rfl (by decide), fun hk => encNnn_of_key hk rfl (by decide),
    fun hk => encXkk_of_key hk rfl (by decide), fun hk => encXkk_of_key hk rfl (by decide),
    fun hk => encPair_of_key hk rfl (by decide), fun hk => encXkk_of_key hk rfl (by decide),
    fun hk => encXkk_of_key hk rfl (by decide), List.forall_mem_nil _⟩

theorem handlersAlu_encodeBack (w : Word) : ∀ row ∈ handlersAlu, RowEncodesBack w row := by
  simp only [handlersAlu, List.forall_mem_cons]
  exact ⟨fun hk => encAlu_of_key hk rfl rfl rfl (by decide), fun hk => encAlu_of_key hk rfl rfl rfl (by decide),
    fun hk => encAlu_of_key hk rfl rfl rfl (by decide), fun hk => encAlu_of_key hk rfl rfl rfl (by decide),
    fun hk => encAlu_of_key hk rfl rfl rfl (by decide), fun hk => encAlu_of_key hk rfl rfl rfl (by decide),
    fun hk => encShift_of_key hk rfl rfl rfl (by decide), fun hk => encAlu_of_key hk rfl rfl rfl (by decide),
    fun hk => encShift_of_key hk rfl rfl rfl (by decide), List.forall_mem_nil _⟩

theorem handlersHigh_encodeBack (w : Word) : ∀ row ∈ handlersHigh, RowEncodesBack w row := by
  simp only [handlersHigh, List.forall_mem_cons]
  exact ⟨fun hk => encPair_of_key hk rfl (by decide), fun hk => encNnn_of_key hk rfl (by decide),
    fun hk => encNnn_of_key hk rfl (by decide), fun hk => encXkk_of_key hk rfl (by decide),
    fun hk => encXyn_of_key hk rfl (by decide), List.forall_mem_nil _⟩

theorem handlersFunc_encodeBack (w : Word) : ∀ row ∈ handlersFunc, RowEncodesBack w row := by
  simp only [handlersFunc, List.forall_mem_cons]
  refine ⟨?_, ?_, ?_, ?_, ?_, ?_, ?_, ?_, ?_, ?_, ?_, List.forall_mem_nil _⟩ <;>
    exact fun hk => encFunc_of_key hk rfl (by decide) rfl

theorem handlerTable_encodeBack (w : Word) : ∀ row ∈ handlerTable, RowEncodesBack w row := by
  simp only [handlerTable, List.forall_mem_append]
  exact ⟨⟨⟨handlersLow_encodeBack w, handlersAlu_encodeBack w⟩, handlersHigh_encodeBack w⟩, handlersFunc_encodeBack w⟩

/-- Settles O21: the word's row gives an instruction that encodes back. -/
theorem encodeOfDecodeIsTheWord : Obligations.EncodeOfDecodeIsTheWord := by
  intro w i h
  obtain ⟨row, hrow, hkey, rfl⟩ := decodeWord_eq_ok h
  exact ⟨decodeWord_wf h, handlerTable_encodeBack w row hrow hkey⟩

/-! ## The random byte (R61) -/

/-- No check reads the random byte. -/
theorem checkOf_withRnd (i : Instr) (s : State) (b : Byte) : checkOf i { s with rnd := b } = checkOf i s := by
  cases i <;> rfl

/-- Only RND reads the random byte (43_index_random.md R100). -/
theorem resultOf_withRnd {i : Instr} (hi : ∀ x kk, i ≠ .rnd x kk) (s : State) (b : Byte) :
    resultOf i { s with rnd := b } = { resultOf i s with rnd := b } := by
  cases i with
  | rnd x kk => exact absurd rfl (hi x kk)
  | _ => rfl

/-- Settles O36: neither the check nor the result of another instruction reads the byte. -/
theorem randomByteConsumedOnlyByRnd : Obligations.RandomByteConsumedOnlyByRnd := by
  intro i s b hi
  rw [exec_eq_guarded, exec_eq_guarded, mapNext_guarded, checkOf_withRnd, resultOf_withRnd hi]

end Sys2Proof.Machine
end

section
/-!
SUPPORT. The obligations on control flow (spec/41_control_flow.md): jumps, call and return, and the skips on registers
and immediates. First the frames of the operations they are built from.
-/
namespace Sys2Proof.Machine

/-! ## Frames -/

theorem Frame.refl (w : MayWrite) (s : State) : Frame w s s :=
  ⟨fun _ _ => rfl, fun _ => rfl, fun _ => rfl, fun _ _ => rfl, fun _ => rfl, fun _ => rfl, fun _ _ => rfl,
    fun _ => rfl, fun _ _ => rfl, rfl, rfl, rfl, rfl⟩

/-- Completing the instruction writes PC and awaiting_key, which are in no frame. -/
theorem Frame.finish {w : MayWrite} {s t : State} (h : Frame w s t) (next : Word) : Frame w s (t.finish next) := h

/-- A write of SP and of the slots named. -/
theorem frame_withStack (s : State) (sp : BitVec 4) {stack : Vector Word 16} {slots : List (BitVec 4)}
    (h : ∀ j, j ∉ slots → stack[j.toNat] = s.getSlot j) :
    Frame { sp := true, slots := slots } s { s with sp := sp, stack := stack } :=
  ⟨fun _ _ => rfl, fun _ => rfl, nofun, h, fun _ => rfl, fun _ => rfl, fun _ _ => rfl,
    fun _ => rfl, fun _ _ => rfl, rfl, rfl, rfl, rfl⟩

/-- A push writes the slot above SP (10_state.md R36). -/
theorem State.push_frame (s : State) (a : Word) : Frame { sp := true, slots := [s.sp + 1] } s (s.push a) :=
  frame_withStack s (s.sp + 1) fun j hj =>
    (s.getSlot_push a j).trans (if_neg (by simpa using hj))

/-- A pop writes no slot (10_state.md R36). -/
theorem State.pop_frame (s : State) : Frame { sp := true } s s.pop :=
  frame_withStack s (s.sp - 1) fun _ _ => rfl

/-! ## Jumps -/

/-- A 12-bit address plus a byte does not wrap (41_control_flow.md R84). -/
theorem toNat_add_toWord {nnn : Word} (h : nnn.toNat ≤ 0xFFF) (b : Byte) :
    (nnn + b.toWord).toNat = nnn.toNat + b.toNat := by
  have := b.isLt
  rw [BitVec.toNat_add, BitVec.toNat_setWidth]
  omega

/-- Settles O22: a jump only completes the instruction, with its target as the next PC. -/
theorem jumpsSetThePc : Obligations.JumpsSetThePc := by
  intro nnn s h
  exact ⟨⟨_, rfl, rfl, rfl, (Frame.refl _ s).finish _⟩,
    ⟨_, rfl, toNat_add_toWord h (s.getV 0), rfl, (Frame.refl _ s).finish _⟩⟩

/-! ## Call and return -/

/-- Settles O23: the check of the push, or the pushed slot and the jump. -/
theorem callPushesItsOwnAddress : Obligations.CallPushesItsOwnAddress := by
  refine fun nnn s => ⟨fun hroom => ?_, fun hfull => guarded_eq_fault.2 (if_pos hfull)⟩
  have hcheck : s.pushFault = none := if_neg hroom
  have hsp : (s.sp + 1).toNat = s.sp.toNat + 1 :=
    BitVec.toNat_add_of_lt (Nat.succ_lt_succ (State.pushFault_eq_none.1 hcheck))
  have hslot : (s.push s.pc).getSlot (s.sp + 1) = s.pc := by simp
  exact ⟨_, guarded_eq_next.2 ⟨hcheck, rfl⟩, hsp, hslot, rfl, rfl, (s.push_frame s.pc).finish nnn⟩

/-- Settles O24: the check of the pop, or the popped slot and the resumption after it. -/
theorem retResumesAfterTheCall : Obligations.RetResumesAfterTheCall := by
  refine fun s => ⟨fun hactive => ?_, fun hempty => guarded_eq_fault.2 (if_pos hempty)⟩
  have hcheck : s.popFault = none := if_neg hactive
  have hsp : (s.sp - 1).toNat + 1 = s.sp.toNat := by
    have := State.popFault_eq_none.1 hcheck
    bv_omega
  exact ⟨_, guarded_eq_next.2 ⟨hcheck, rfl⟩, hsp, rfl, rfl, s.pop_frame.finish _⟩

/-- Settles O25: RET pops the slot in which CALL left its own address. -/
theorem callThenRetComesBack : Obligations.CallThenRetComesBack := by
  intro nnn s t u hroom hcall hsp hstack
  obtain ⟨t', hcall', hpushed, hslot, -⟩ := (callPushesItsOwnAddress nnn s).1 hroom
  obtain rfl : t = t' := Host.Outcome.next.inj (hcall.symm.trans hcall')
  have hdepth : u.sp.toNat = s.sp.toNat + 1 := hsp ▸ hpushed
  have hactive : u.sp ≠ 0 := fun h => by simp [h] at hdepth
  have hpopped : u.getSlot u.sp = s.pc := by rw [State.getSlot_congr hstack, hsp, hslot]
  obtain ⟨r, hret, hback, hpc, -⟩ := (retResumesAfterTheCall u).1 hactive
  exact ⟨r, hret, hpopped ▸ hpc, BitVec.eq_of_toNat_eq (by omega)⟩

/-! ## Skips -/

/-- Everything a conditional skip does: PC by its condition, no wait for a key, nothing else (10_state.md R21, R30). -/
theorem State.skipIf_spec (s : State) {taken : Bool} {p : Prop} [Decidable p] (h : taken = true ↔ p) :
    (s.skipIf taken).pc = (if p then s.pc + 4 else s.pc + 2) ∧ (s.skipIf taken).awaitingKey = false ∧
      Frame {} s (s.skipIf taken) := by
  rw [State.skipIf_eq]
  exact ⟨if_congr h rfl rfl, rfl, Frame.refl _ s⟩

/-- Settles O26: each of the four is a skip on its condition. -/
theorem skipsAdvanceByFourWhenTaken : Obligations.SkipsAdvanceByFourWhenTaken := by
  intro x y kk s
  exact ⟨⟨_, rfl, s.skipIf_spec beq_iff_eq⟩, ⟨_, rfl, s.skipIf_spec bne_iff_ne⟩,
    ⟨_, rfl, s.skipIf_spec beq_iff_eq⟩, ⟨_, rfl, s.skipIf_spec bne_iff_ne⟩⟩

end Sys2Proof.Machine
end

section
/-!
SUPPORT. The obligations on register arithmetic and logic (spec/42_arith_logic.md). Every instruction of the family
writes one result, with or without a flag before it, and advances: each of the two forms has one lemma, and what is
left of an instruction is the arithmetic of its result and its flag.
-/
namespace Sys2Proof.Machine

/-! ## Arithmetic of the flags and the results -/

/-- VF after ADD (10_state.md R26). -/
theorem carryFlag_eq (a b : Byte) : carryFlag a b = if a.toNat + b.toNat > 255 then 1 else 0 := by
  simp [carryFlag, flagByte]

/-- VF after SUB and SUBN (10_state.md R26). -/
theorem notBorrowFlag_eq (a b : Byte) : notBorrowFlag a b = if b.toNat > a.toNat then 0 else 1 := by
  unfold notBorrowFlag flagByte
  by_cases h : b.toNat > a.toNat <;> simp [h]

theorem lowBitFlag_toNat (a : Byte) : (lowBitFlag a).toNat = a.toNat % 2 :=
  (BitVec.toNat_and a 1).trans (Nat.and_one_is_mod _)

theorem highBitFlag_toNat (a : Byte) : (highBitFlag a).toNat = a.toNat / 128 :=
  (BitVec.toNat_ushiftRight a 7).trans (Nat.shiftRight_eq_div_pow _ 7)

/-- The wrapped difference as a sum that does not go below 0 (42_arith_logic.md R96). -/
theorem toNat_byte_sub (a b : Byte) : (a - b).toNat = (a.toNat + 256 - b.toNat) % 256 := by
  have := b.isLt
  rw [BitVec.toNat_sub]
  omega

/-! ## The write of a result -/

/-- A write of the registers named. -/
theorem frame_withV (s : State) {v : Vector Byte 16} {regs : List RegIx}
    (h : ∀ r, r ∉ regs → v[r.toNat] = s.getV r) : Frame { regs := regs } s { s with v := v } :=
  ⟨h, fun _ => rfl, fun _ => rfl, fun _ _ => rfl, fun _ => rfl, fun _ => rfl, fun _ _ => rfl,
    fun _ => rfl, fun _ _ => rfl, rfl, rfl, rfl, rfl⟩

/-- An instruction that writes V[x] with no flag and advances: its result has what is shown of the written byte. -/
theorem yields_setV_advance {s : State} {x : RegIx} {b : Byte} (p : Byte → Prop) (hresult : p b) :
    Yields (.next (s.setV x b).advance) (fun t =>
      p (t.getV x) ∧ Advanced s t ∧ Frame { regs := [x] } s t) := by
  have hx : (s.setV x b).getV x = b := by simp
  have hframe : Frame { regs := [x] } s (s.setV x b) := frame_withV s fun _ => State.getV_setV_of_notMem
  exact ⟨_, rfl, hx.symm ▸ hresult, ⟨rfl, rfl⟩, hframe.finish _⟩

/-- The flag first and the result second: V[x] is the result also where x is VF, and only then is the flag lost
(10_state.md R17). -/
theorem State.setFlagThenV_spec (s : State) (x : RegIx) {f b : Byte} (p q : Byte → Prop) (hresult : p b)
    (hflag : q f) :
    p ((s.setFlagThenV f x b).getV x) ∧ (x ≠ vf → q ((s.setFlagThenV f x b).getV vf)) ∧
      Frame { regs := [x, vf] } s (s.setFlagThenV f x b) := by
  have hx : (s.setFlagThenV f x b).getV x = b := by simp
  have hvf (h : x ≠ vf) : (s.setFlagThenV f x b).getV vf = f := by simp [h.symm]
  exact ⟨hx.symm ▸ hresult, fun h => (hvf h).symm ▸ hflag, frame_withV s fun _ => State.getV_setFlagThenV_of_notMem⟩

/-- An instruction that writes its flag and V[x] and advances. -/
theorem yields_setFlagThenV_advance {s : State} {x : RegIx} {f b : Byte} (p q : Byte → Prop) (hresult : p b)
    (hflag : q f) :
    Yields (.next (s.setFlagThenV f x b).advance) (fun t =>
      p (t.getV x) ∧ (x ≠ vf → q (t.getV vf)) ∧ Advanced s t ∧ Frame { regs := [x, vf] } s t) := by
  obtain ⟨hx, hvf, hframe⟩ := s.setFlagThenV_spec x p q hresult hflag
  exact ⟨_, rfl, hx, hvf, ⟨rfl, rfl⟩, hframe.finish _⟩

/-- SUBN's advance writes PC and awaiting_key, which are in no frame. -/
theorem Frame.advanceSubn {w : MayWrite} {s t : State} (h : Frame w s t) : Frame w s t.advanceSubn := by
  rw [State.advanceSubn_eq]; exact h

/-! ## Instructions with no flag -/

/-- Settles O27: the written byte is the source itself. -/
theorem registerLoadsCopyTheirSource : Obligations.RegisterLoadsCopyTheirSource := by
  intro x y kk s
  exact ⟨yields_setV_advance (· = kk) rfl, yields_setV_advance (· = s.getV y) rfl⟩

/-- Settles O28: the written byte is the wrapped sum. -/
theorem addImmediateWrapsWithoutFlag : Obligations.AddImmediateWrapsWithoutFlag := by
  intro x kk s
  exact yields_setV_advance (·.toNat = ((s.getV x).toNat + kk.toNat) % 256) (BitVec.toNat_add _ _)

/-- Settles O29: the bits of the written byte, operation by operation. -/
theorem logicOperationsBitByBit : Obligations.LogicOperationsBitByBit := by
  intro x y s
  exact ⟨yields_setV_advance (fun a => ∀ b, a.getLsbD b = ((s.getV x).getLsbD b || (s.getV y).getLsbD b))
      fun _ => BitVec.getLsbD_or,
    yields_setV_advance (fun a => ∀ b, a.getLsbD b = ((s.getV x).getLsbD b && (s.getV y).getLsbD b))
      fun _ => BitVec.getLsbD_and,
    yields_setV_advance (fun a => ∀ b, a.getLsbD b = ((s.getV x).getLsbD b ^^ (s.getV y).getLsbD b))
      fun _ => BitVec.getLsbD_xor⟩

/-! ## Instructions with a flag -/

/-- Settles O30: the wrapped sum, and the carry as its flag. -/
theorem addSetsCarryThenSum : Obligations.AddSetsCarryThenSum := by
  intro x y s
  exact yields_setFlagThenV_advance (·.toNat = ((s.getV x).toNat + (s.getV y).toNat) % 256)
    (· = if (s.getV x).toNat + (s.getV y).toNat > 255 then 1 else 0) (BitVec.toNat_add _ _) (carryFlag_eq _ _)

/-- Settles O31: the wrapped difference, and not borrow as its flag. -/
theorem subSetsNotBorrowThenDifference : Obligations.SubSetsNotBorrowThenDifference := by
  intro x y s
  exact yields_setFlagThenV_advance (·.toNat = ((s.getV x).toNat + 256 - (s.getV y).toNat) % 256)
    (· = if (s.getV y).toNat > (s.getV x).toNat then 0 else 1) (toNat_byte_sub _ _) (notBorrowFlag_eq _ _)

/-- Settles O32: SUB's result and flag with the operands exchanged, and an advance that the parameter may hold back. -/
theorem subnReversesUnderBothParameterValues : Obligations.SubnReversesUnderBothParameterValues := by
  intro x y s
  obtain ⟨hx, hvf, hframe⟩ := s.setFlagThenV_spec x
    (·.toNat = ((s.getV y).toNat + 256 - (s.getV x).toNat) % 256)
    (· = if (s.getV x).toNat > (s.getV y).toNat then 0 else 1) (toNat_byte_sub _ _) (notBorrowFlag_eq _ _)
  refine ⟨_, rfl, ?_, ?_, State.advanceSubn_pc _, State.advanceSubn_awaitingKey _, hframe.advanceSubn⟩
  · rwa [State.getV_advanceSubn]
  · rwa [State.getV_advanceSubn]

/-- Settles O33: half or twice the byte, and the bit shifted out as its flag. -/
theorem shiftsSetTheBitShiftedOut : Obligations.ShiftsSetTheBitShiftedOut := by
  intro x s
  have hshr : (s.getV x >>> 1).toNat = (s.getV x).toNat / 2 := by
    rw [BitVec.toNat_ushiftRight, Nat.shiftRight_one]
  have hshl : (s.getV x <<< 1).toNat = (s.getV x).toNat * 2 % 256 := by
    rw [BitVec.toNat_shiftLeft, Nat.shiftLeft_eq, Nat.pow_one]
  exact ⟨yields_setFlagThenV_advance (·.toNat = (s.getV x).toNat / 2) (·.toNat = (s.getV x).toNat % 2) hshr
      (lowBitFlag_toNat _),
    yields_setFlagThenV_advance (·.toNat = (s.getV x).toNat * 2 % 256) (·.toNat = (s.getV x).toNat / 128) hshl
      (highBitFlag_toNat _)⟩

end Sys2Proof.Machine
end

section
/-!
SUPPORT. The obligations on the index register and the random byte (spec/43_index_random.md). The three index
instructions write I and advance, which is one lemma; RND writes one register with no flag, as the loads of
spec/42_arith_logic.md do.
-/
namespace Sys2Proof.Machine

/-! ## Arithmetic of the index -/

/-- ADD I wraps at the width of a word (43_index_random.md R98). -/
theorem toNat_word_add_toWord (w : Word) (b : Byte) : (w + b.toWord).toNat = (w.toNat + b.toNat) % 65536 := by
  rw [BitVec.toNat_add, BitVec.toNat_setWidth_of_le (by decide)]

/-- Five times a byte fits in a word, so the address of a glyph does not wrap (43_index_random.md R99). -/
theorem glyphAddr_toNat (a : Byte) : (glyphAddr a).toNat = a.toNat * 5 := by
  have := a.isLt
  rw [glyphAddr, Config.glyphBase_eq, Config.glyphHeight_eq, BitVec.toNat_ofNat]
  omega

/-! ## The write of the index -/

/-- A write of I. -/
theorem State.setI_frame (s : State) (w : Word) : Frame { index := true } s (s.setI w) :=
  ⟨fun _ _ => rfl, nofun, fun _ => rfl, fun _ _ => rfl, fun _ => rfl, fun _ => rfl, fun _ _ => rfl,
    fun _ => rfl, fun _ _ => rfl, rfl, rfl, rfl, rfl⟩

/-- An instruction that writes I and advances: its result has what is shown of the written word. -/
theorem yields_setI_advance {s : State} {w : Word} (p : Word → Prop) (hresult : p w) :
    Yields (.next (s.setI w).advance) (fun t => p t.i ∧ Advanced s t ∧ Frame { index := true } s t) :=
  ⟨_, rfl, hresult, ⟨rfl, rfl⟩, (s.setI_frame w).finish _⟩

/-- Settles O34: the written word is the operand, the wrapped sum, or the address of the glyph. -/
theorem indexInstructionsSetTheIndex : Obligations.IndexInstructionsSetTheIndex := by
  intro x nnn s _
  exact ⟨yields_setI_advance (· = nnn) rfl,
    yields_setI_advance (·.toNat = (s.i.toNat + (s.getV x).toNat) % 65536) (toNat_word_add_toWord _ _),
    yields_setI_advance (·.toNat = (s.getV x).toNat * 5) (glyphAddr_toNat _)⟩

/-! ## The random byte under the mask -/

/-- Settles O35: the bits of the written byte. -/
theorem randomByteUnderTheMask : Obligations.RandomByteUnderTheMask := by
  intro x kk s
  exact yields_setV_advance (fun a => ∀ b, a.getLsbD b = (s.rnd.getLsbD b && kk.getLsbD b)) fun _ => BitVec.getLsbD_and

end Sys2Proof.Machine
end

section
/-!
SUPPORT. The obligations on the display (spec/44_display.md). The blit of the sprite at I is said once, in terms of
SpriteLights; a draw's result is that blit, and two draws in a row are two uses of what one draw does.
-/
namespace Sys2Proof.Machine

/-! ## render and clear -/

/-- Settles O9: the cell of column c in row r is the one at 64 r + c. -/
theorem renderAnswersTheCells : Obligations.RenderAnswersTheCells := by
  intro s
  refine ⟨rfl, s.render, rfl, by simp [State.render], fun r hr => ⟨by simp [State.render], fun c hc => ?_⟩⟩
  have hcell : s.render[r][c] = fbCell s.fb (r * 64 + c) := by simp [State.render]
  rw [hcell, Nat.mul_comm]

/-- A write of the display and of the registers named. -/
theorem frame_withFb (s : State) (fb : Vector Row 32) {v : Vector Byte 16} {regs : List RegIx}
    (h : ∀ r, r ∉ regs → v[r.toNat] = s.getV r) :
    Frame { regs := regs, display := true } s { s with fb := fb, v := v } :=
  ⟨h, fun _ => rfl, fun _ => rfl, fun _ _ => rfl, fun _ => rfl, fun _ => rfl, nofun,
    fun _ => rfl, fun _ _ => rfl, rfl, rfl, rfl, rfl⟩

/-- Settles O37: the result is the cleared display and the advance. -/
theorem clsClearsEveryCell : Obligations.ClsClearsEveryCell := by
  intro s
  exact ⟨_, rfl, fbCell_clear, ⟨rfl, rfl⟩, (frame_withFb s _ fun _ _ => rfl).finish _⟩

/-! ## The blit of the sprite at I (R102) -/

section Blit
variable {s : State} {x y : Byte} {n j : Nat}

theorem State.blit_sprite_lit (hj : j < 2048) (h : SpriteLights s x y n j) :
    fbCell (s.blit x y (s.sprite n)).fb j = !fbCell s.fb j :=
  (blitRows_spec (s.sprite n) x.toNat y.toNat ⟨s.fb, false⟩).1 j hj ((rowsLight_sprite s x y n j).2 h)

theorem State.blit_sprite_unlit (h : ¬ SpriteLights s x y n j) :
    fbCell (s.blit x y (s.sprite n)).fb j = fbCell s.fb j :=
  (blitRows_spec (s.sprite n) x.toNat y.toNat ⟨s.fb, false⟩).2.1 j (mt (rowsLight_sprite s x y n j).1 h)

/-- A set cell is on the screen. -/
theorem lt_of_fbCell {fb : Vector Row 32} (h : fbCell fb j = true) : j < 2048 := by
  by_contra hj
  rw [fbCell_past fb (Nat.le_of_not_lt hj)] at h
  cases h

theorem State.blit_sprite_collided :
    (s.blit x y (s.sprite n)).collided = true ↔ ∃ j, j < 2048 ∧ SpriteLights s x y n j ∧ fbCell s.fb j = true := by
  obtain ⟨-, -, hcollided⟩ := blitRows_spec (s.sprite n) x.toNat y.toNat ⟨s.fb, false⟩
  simp only [rowsLight_sprite, Bool.false_eq_true, false_or] at hcollided
  exact hcollided.trans (exists_congr fun j => ⟨fun ⟨hlit, hset⟩ => ⟨lt_of_fbCell hset, hlit, hset⟩, And.right⟩)

end Blit

/-! ## One draw -/

theorem flagByte_eq_one {c : Bool} : flagByte c = 1 ↔ c = true := by cases c <;> decide

theorem flagByte_eq_zero {c : Bool} : flagByte c = 0 ↔ c = false := by cases c <;> decide

section Draw
variable {x y : RegIx} {n j : Nat} {s : State}

theorem resultOf_drw_lit (hj : j < 2048) (h : SpriteLights s (s.getV x) (s.getV y) n j) :
    fbCell (resultOf (.drw x y n) s).fb j = !fbCell s.fb j :=
  State.blit_sprite_lit hj h

theorem resultOf_drw_unlit (h : ¬ SpriteLights s (s.getV x) (s.getV y) n j) :
    fbCell (resultOf (.drw x y n) s).fb j = fbCell s.fb j :=
  State.blit_sprite_unlit h

/-- VF is written after the coordinates are read, so it is the flag also where x or y is VF (10_state.md R17). -/
theorem resultOf_drw_vf :
    (resultOf (.drw x y n) s).getV vf = flagByte (s.blit (s.getV x) (s.getV y) (s.sprite n)).collided :=
  (State.getV_setV _ vf vf _).trans (if_pos rfl)

theorem resultOf_drw_vf_eq_one : (resultOf (.drw x y n) s).getV vf = 1 ↔
    ∃ j, j < 2048 ∧ SpriteLights s (s.getV x) (s.getV y) n j ∧ fbCell s.fb j = true := by
  rw [resultOf_drw_vf, flagByte_eq_one, State.blit_sprite_collided]

theorem resultOf_drw_vf_eq_zero : (resultOf (.drw x y n) s).getV vf = 0 ↔
    ¬ ∃ j, j < 2048 ∧ SpriteLights s (s.getV x) (s.getV y) n j ∧ fbCell s.fb j = true := by
  rw [resultOf_drw_vf, flagByte_eq_zero, ← State.blit_sprite_collided, Bool.not_eq_true]

theorem resultOf_drw_frame : Frame { regs := [vf], display := true } s (resultOf (.drw x y n) s) :=
  frame_withFb s _ fun _ => State.getV_setV_of_notMem

end Draw

/-- Settles O38: the read check decides which case it is, and the result is described cell by cell. -/
theorem drawXorsTheSprite : Obligations.DrawXorsTheSprite := by
  intro x y n s _
  have hcheck := s.checkRead_eq s.i.toNat n
  refine ⟨fun hfits => ⟨resultOf (.drw x y n) s, ?_, fun _ => resultOf_drw_lit, fun _ => resultOf_drw_unlit,
    resultOf_drw_vf_eq_one.2, resultOf_drw_vf_eq_zero.2, ⟨rfl, rfl⟩, resultOf_drw_frame⟩, fun hspills => ?_⟩
  · exact exec_eq_next.2 ⟨hcheck.trans (if_neg hfits), rfl⟩
  · exact exec_eq_fault.2 (hcheck.trans (if_pos hspills))

/-! ## Two draws in a row -/

/-- A draw changes neither I nor memory nor, where they are not in VF, its coordinates: the next draw lights the same
cells. -/
theorem spriteLights_resultOf_drw {x y : RegIx} (hx : x ≠ vf) (hy : y ≠ vf) (n j : Nat) (s : State) :
    SpriteLights (resultOf (.drw x y n) s) ((resultOf (.drw x y n) s).getV x) ((resultOf (.drw x y n) s).getV y) n j ↔
      SpriteLights s (s.getV x) (s.getV y) n j := by
  rw [resultOf_getV (by simpa [writtenRegs] using hx), resultOf_getV (by simpa [writtenRegs] using hy)]
  rfl

/-- Settles O39: an on-screen cell of a lit bit is inverted twice and any other cell never, and the second draw finds
the lit cells inverted. -/
theorem drawingTwiceRestoresTheDisplay : Obligations.DrawingTwiceRestoresTheDisplay := by
  intro x y n s t u _ hx hy hst htu
  obtain ⟨-, rfl⟩ := exec_eq_next.1 hst
  obtain ⟨-, rfl⟩ := exec_eq_next.1 htu
  have hsame (j : Nat) := spriteLights_resultOf_drw hx hy n j s
  refine ⟨fun j => ?_, ?_⟩
  · by_cases hj : j < 2048
    · by_cases hlit : SpriteLights s (s.getV x) (s.getV y) n j
      · rw [resultOf_drw_lit hj ((hsame j).2 hlit), resultOf_drw_lit hj hlit, Bool.not_not]
      · rw [resultOf_drw_unlit (mt (hsame j).1 hlit), resultOf_drw_unlit hlit]
    · rw [fbCell_past _ (Nat.le_of_not_lt hj), fbCell_past _ (Nat.le_of_not_lt hj)]
  · rw [resultOf_drw_vf_eq_one]
    refine exists_congr fun j => and_congr_right fun hj => ?_
    rw [hsame j]
    refine and_congr_right fun hlit => ?_
    rw [resultOf_drw_lit hj hlit, Bool.not_eq_true']

end Sys2Proof.Machine
end

section
/-!
SUPPORT. The obligations on the keypad and the timers (spec/45_keypad_timer.md): the host's ticks and keys, the
instructions that read or write them, and the wait for a key. A step of the wait leaves the machine as it was up to
awaiting_key and what the environment supplies, so the run is an induction on the number of steps.
-/
namespace Sys2Proof.Machine

/-! ## Timers -/

/-- A write of the timers named. -/
theorem frame_withTimers (s : State) {w : MayWrite} {dt st : Byte} (hdt : w.dt = false → dt = s.dt)
    (hst : w.st = false → st = s.st) : Frame w s { s with dt := dt, st := st } :=
  ⟨fun _ _ => rfl, fun _ => rfl, fun _ => rfl, fun _ _ => rfl, hdt, hst, fun _ _ => rfl,
    fun _ => rfl, fun _ _ => rfl, rfl, rfl, rfl, rfl⟩

/-- n ticks are n decrements of each timer (45_keypad_timer.md R111). -/
theorem applyOps_ticks (s : State) (n : Nat) :
    applyOps s (List.replicate n .tick) = { s with dt := countDown^[n] s.dt, st := countDown^[n] s.st } := by
  induction n generalizing s with
  | zero => rfl
  | succ n ih => exact ih s.tick

theorem countDown_iterate_toNat (n : Nat) (b : Byte) : (countDown^[n] b).toNat = b.toNat - n := by
  induction n with
  | zero => rfl
  | succ n ih => rw [Function.iterate_succ_apply', countDown_toNat, ih, Nat.sub_sub]

/-- Settles O7: the ticks are iterated decrements; of the instructions, DT is written by Fx15 only and ST by Fx18 only. -/
theorem ticksCountTimersDownToZero : Obligations.TicksCountTimersDownToZero := by
  intro s n
  rw [applyOps_ticks]
  refine ⟨countDown_iterate_toNat n s.dt, countDown_iterate_toNat n s.st, frame_withTimers s nofun nofun, rfl, rfl,
    fun i t h => ?_⟩
  obtain ⟨-, rfl⟩ := exec_eq_next.1 h
  constructor
  · refine (resultOf_dt i s).imp_right ?_
    rintro ⟨x, rfl⟩
    exact ⟨x, rfl, rfl⟩
  · refine (resultOf_st i s).imp_right ?_
    rintro ⟨x, rfl⟩
    exact ⟨x, rfl, rfl⟩

/-- Settles O10: a byte is 0 exactly when its value is. -/
theorem soundOnIffSoundTimerRuns : Obligations.SoundOnIffSoundTimerRuns := fun _ =>
  bne_iff_ne.trans BitVec.toNat_ne

/-- Settles O43: a load of V[x] from DT, and the two writes of a timer from V[x]. -/
theorem timerTransfers : Obligations.TimerTransfers := by
  intro x s
  have hdt : Frame { dt := true } s (s.setDt (s.getV x)) := frame_withTimers s nofun fun _ => rfl
  have hst : Frame { st := true } s (s.setSt (s.getV x)) := frame_withTimers s (fun _ => rfl) nofun
  exact ⟨yields_setV_advance (· = s.dt) rfl, ⟨_, rfl, rfl, ⟨rfl, rfl⟩, hdt.finish _⟩,
    ⟨_, rfl, rfl, ⟨rfl, rfl⟩, hst.finish _⟩⟩

/-! ## The host's keys -/

theorem HostOp.answer_isKeyPressed {s : State} {k : Nat} (h : k < 16) :
    HostOp.answer s (.isKeyPressed k) = .key s.keys[k] := by
  simp [HostOp.answer, h]

theorem HostOp.answer_isKeyPressed_past {s : State} {k : Nat} (h : 15 < k) :
    HostOp.answer s (.isKeyPressed k) = .refused .badKeyIndex := by
  have hnone : s.keys[k]? = none := Vector.getElem?_eq_none h
  rw [HostOp.answer, hnone]

/-- set_key changes nothing but the keys (45_keypad_timer.md R113). -/
theorem State.setKey_eq (s : State) (k : Nat) (pressed : Bool) :
    s.setKey k pressed = { s with keys := (s.setKey k pressed).keys } := by
  unfold State.setKey; split <;> rfl

/-- A write of the keys. -/
theorem frame_withKeys (s : State) (keys : Vector Bool 16) : Frame { keys := true } s { s with keys := keys } :=
  ⟨fun _ _ => rfl, fun _ => rfl, fun _ => rfl, fun _ _ => rfl, fun _ => rfl, fun _ => rfl, fun _ _ => rfl,
    nofun, fun _ _ => rfl, rfl, rfl, rfl, rfl⟩

/-- Settles O8: the written key and the others, read directly and through is_key_pressed; the two refusals; the frame. -/
theorem setKeyThenIsKeyPressed : Obligations.SetKeyThenIsKeyPressed := by
  intro s k pressed
  have hself (hk : k < 16) : (s.setKey k pressed).keys[k] = pressed := by rw [State.setKey_keys hk hk, if_pos rfl]
  have hother (hk : k < 16) {j : Nat} (hj : j < 16) (hne : j ≠ k) : (s.setKey k pressed).keys[j] = s.keys[j] := by
    rw [State.setKey_keys hk hj, if_neg hne]
  refine ⟨fun hk => ⟨HostOp.answer_isKeyPressed hk, if_pos hk, hself hk, fun j hj hne => hother hk hj hne, ?_, ?_⟩,
    fun hk => ⟨if_neg (by omega), State.setKey_past hk pressed, HostOp.answer_isKeyPressed_past hk⟩, rfl, ?_⟩
  · exact (HostOp.answer_isKeyPressed hk).trans (congrArg _ (hself hk))
  · intro j hj hne
    have hj : j < 16 := Nat.lt_succ_of_le hj
    rw [HostOp.answer_isKeyPressed hj, HostOp.answer_isKeyPressed hj]
    exact congrArg _ (hother hk hj hne)
  · have hkeys : HostOp.apply s (.setKey k pressed) = _ := s.setKey_eq k pressed
    rw [hkeys]
    exact ⟨frame_withKeys s _, rfl, rfl⟩

/-! ## Skips on a key -/

theorem State.keyAt_eq_some_iff {s : State} {a : Byte} (h : a.toNat < 16) {b : Bool} :
    s.keyAt a = some b ↔ s.keys[a.toNat] = b := by
  simp [State.keyAt, h]

/-- The check of SKP and SKNP in both cases (45_keypad_timer.md R105, R106). -/
theorem State.keyFault_eq (s : State) (a : Byte) :
    s.keyFault a = if 15 < a.toNat then some (.keyIndexOutOfRange s.pc a) else none :=
  if_congr State.keyAt_none rfl rfl

/-- A skip on a key that exists, taken under p. -/
theorem yields_skipOnKey {x : RegIx} {want : Bool} {s : State} {p : Prop} [Decidable p] (h : (s.getV x).toNat < 16)
    (hp : s.keys[(s.getV x).toNat] = want ↔ p) :
    Yields (skipOnKey x want s) (fun t =>
      t.pc = (if p then s.pc + 4 else s.pc + 2) ∧ t.awaitingKey = false ∧ Frame {} s t) := by
  have hcheck : s.keyFault (s.getV x) = none := (s.keyFault_eq _).trans (if_neg (by omega))
  have htaken : (s.keyAt (s.getV x) == some want) = true ↔ p :=
    beq_iff_eq.trans ((State.keyAt_eq_some_iff h).trans hp)
  exact ⟨_, (skipOnKey_eq x want s).trans (guarded_eq_next.2 ⟨hcheck, rfl⟩), s.skipIf_spec htaken⟩

/-- A skip on a key that does not exist. -/
theorem skipOnKey_past {x : RegIx} (want : Bool) {s : State} (h : 15 < (s.getV x).toNat) :
    skipOnKey x want s = .fault (.keyIndexOutOfRange s.pc (s.getV x)) := by
  rw [skipOnKey_eq, guarded_eq_fault, State.keyFault_eq, if_pos h]

/-- Settles O40: SKP is the skip on a pressed key, SKNP the skip on one that is not. -/
theorem keySkipsFollowTheKey : Obligations.KeySkipsFollowTheKey := by
  refine fun x s => ⟨fun h => ⟨yields_skipOnKey h Iff.rfl, ?_⟩, fun h => ⟨skipOnKey_past true h, skipOnKey_past false h⟩⟩
  show Yields (skipOnKey x false s) _
  simpa only [ite_not] using yields_skipOnKey h (Bool.not_eq_true _).symm.to_iff

/-! ## The wait for a key -/

/-- The scan of the keypad finds the least pressed key (45_keypad_timer.md R107). -/
theorem State.firstPressed_eq_some {s : State} {k : RegIx} (hpressed : s.keys[k.toNat] = true)
    (hleast : ∀ j : RegIx, j.toNat < k.toNat → s.keys[j.toNat] = false) : s.firstPressed = some k := by
  have hfind : (List.finRange 16).find? (fun j => s.keys[j]) = some k.toFin := by
    refine List.find?_eq_some_iff_getElem.2 ⟨hpressed, k.toNat, by simpa using k.isLt, by simp, fun j hj => ?_⟩
    simpa using hleast (BitVec.ofNatLT j (hj.trans k.isLt)) hj
  rw [State.firstPressed, hfind]
  simp

theorem exec_ldVxK_of_pressed {x k : RegIx} {s : State} (h : s.firstPressed = some k) :
    exec (.ldVxK x) s = .next (s.setV x (k.setWidth 8)).advance := by
  show execLdVxK x s = _
  rw [execLdVxK, h]

theorem exec_ldVxK_of_none {x : RegIx} {s : State} (h : ∀ k : RegIx, s.keys[k.toNat] = false) :
    exec (.ldVxK x) s = .next s.awaitKey := by
  show execLdVxK x s = _
  rw [execLdVxK, State.firstPressed_none.2 h]

/-- Settles O41: the scan finds the least pressed key, or nothing and the instruction only marks the wait. -/
theorem waitForKeyStoresLowestOrHolds : Obligations.WaitForKeyStoresLowestOrHolds := by
  refine fun x s => ⟨fun k hpressed hleast => ?_, fun hnone => ?_⟩
  · rw [exec_ldVxK_of_pressed (State.firstPressed_eq_some hpressed hleast)]
    exact yields_setV_advance (·.toNat = k.toNat) (BitVec.toNat_setWidth_of_le (by decide))
  · exact ⟨_, exec_ldVxK_of_none hnone, rfl, rfl, Frame.refl _ s⟩

/-! ## A run that waits -/

/-- No coming input holds a host transaction. -/
def Quiet (inputs : List StepInput) : Prop := ∀ inp, inp ∈ inputs → inp.ops = []

/-- PC points at Fx0A, no key is pressed and the host will make no transaction. -/
structure WaitsAt (x : RegIx) (s : State) : Prop where
  fetchable : pcOk s.pc = true
  word : decodeWord s.fetchWord = .ok (.ldVxK x)
  noKey : ∀ k : RegIx, s.keys[k.toNat] = false
  quiet : Quiet s.inputs

/-- The machine of s with awaiting_key and the environment's fields of e. -/
def State.withEnvOf (s e : State) : State :=
  { s with awaitingKey := e.awaitingKey, rnd := e.rnd, inputs := e.inputs, freeIx := e.freeIx }

/-- The wait reads neither awaiting_key nor the random byte. -/
theorem WaitsAt.withEnvOf {x : RegIx} {s e : State} (h : WaitsAt x s) (hquiet : Quiet e.inputs) :
    WaitsAt x (s.withEnvOf e) :=
  ⟨h.fetchable, h.word, h.noKey, hquiet⟩

/-- With no transaction coming, delivery touches only the environment's fields (70_reset_and_hazards.md R143). -/
theorem deliver_of_quiet {s : State} (h : Quiet s.inputs) :
    s.deliver = s.withEnvOf s.deliver ∧ Quiet s.deliver.inputs := by
  cases hin : s.inputs with
  | nil =>
    rw [State.deliver_nil hin]
    exact ⟨rfl, h⟩
  | cons inp rest =>
    rw [hin] at h
    rw [State.deliver_cons hin, h inp List.mem_cons_self]
    exact ⟨rfl, fun next hnext => h next (List.mem_cons_of_mem inp hnext)⟩

/-- One step of the wait (45_keypad_timer.md R107). -/
theorem WaitsAt.step_next {x : RegIx} {s : State} (h : WaitsAt x s) :
    ∃ e : State, step s = .next (s.withEnvOf e) ∧ e.awaitingKey = true ∧ Quiet e.inputs := by
  obtain ⟨hdeliver, hquiet⟩ := deliver_of_quiet h.quiet
  have hwait : WaitsAt x s.deliver := hdeliver ▸ h.withEnvOf hquiet
  refine ⟨s.deliver.awaitKey, ?_, rfl, hquiet⟩
  calc step s = exec (.ldVxK x) s.deliver := by
        rw [step, coreStep, if_pos hwait.fetchable, hwait.word]
    _ = .next s.deliver.awaitKey := exec_ldVxK_of_none hwait.noKey
    _ = .next (s.withEnvOf s.deliver.awaitKey) := congrArg (fun t => Host.Outcome.next t.awaitKey) hdeliver

/-- Any number of steps of the wait. -/
theorem WaitsAt.runFor_next {x : RegIx} {s : State} (h : WaitsAt x s) (k : Nat) :
    ∃ e : State, runFor k s = .next (s.withEnvOf e) ∧ (0 < k ∨ s.awaitingKey = true → e.awaitingKey = true) := by
  induction k generalizing s with
  | zero => exact ⟨s, rfl, fun hk => hk.resolve_left (lt_irrefl 0)⟩
  | succ k ih =>
    obtain ⟨e, hstep, hawaits, hquiet⟩ := h.step_next
    obtain ⟨f, hrun, hf⟩ := ih (h.withEnvOf hquiet)
    exact ⟨f, (runFor_succ_next hstep).trans hrun, fun _ => hf (.inr hawaits)⟩

/-- Settles O42: the run leaves the machine as it was, up to awaiting_key and the environment's fields. -/
theorem keyWaitLastsWhileNoKeyIsPressed : Obligations.KeyWaitLastsWhileNoKeyIsPressed := by
  intro x s hpc hword hnone hquiet k
  have hwait : WaitsAt x s := ⟨hpc, hword, hnone, hquiet⟩
  obtain ⟨e, hrun, hawaits⟩ := hwait.runFor_next k
  exact ⟨_, hrun, rfl, fun _ => rfl, rfl, rfl, rfl, rfl, rfl, rfl, rfl, rfl, fun hk => hawaits (.inl hk)⟩

end Sys2Proof.Machine
end

section
/-!
SUPPORT. The obligations on memory transfer (spec/46_memory_transfer.md). The check decides whether an instruction
completes; the store and the load of a block of registers end alike, which is one lemma, and what is left of each is
the bytes it moves.
-/
namespace Sys2Proof.Machine

/-! ## The checks above memory -/

/-- A write of 1 to 16 bytes that ends above memory is reported at its first address there. -/
theorem State.checkWrite_above {s : State} {base n : Nat} (hsmall : n < 16) (hlast : 0xFFF < base + n) :
    s.checkWrite base (n + 1) = some (.memoryOutOfRange s.pc (max base 0x1000) .write) := by
  rw [State.checkWrite_eq s n.succ_pos hsmall, if_neg (by omega), if_pos (by omega)]

/-- A read that ends above memory is reported at its first address there. -/
theorem State.checkRead_above {s : State} {base n : Nat} (hlast : 0xFFF < base + n) :
    s.checkRead base (n + 1) = some (.memoryOutOfRange s.pc (max base 0x1000) .read) := by
  rw [State.checkRead_eq, if_pos (by omega)]

/-! ## The index after a block -/

/-- I past the block wraps at the width of a word (46_memory_transfer.md R116, R117). -/
theorem State.pastBlock_toNat (s : State) (x : RegIx) :
    (s.pastBlock x).toNat = (s.i.toNat + x.toNat + 1) % 65536 := by
  rw [State.pastBlock, BitVec.toNat_add, BitVec.toNat_ofNat, blockSize]
  omega

/-- A write of I after other writes. -/
theorem Frame.setI {w : MayWrite} {s t : State} (h : Frame w s t) (a : Word) :
    Frame { w with index := true } s (t.setI a) := by
  obtain ⟨hregs, -, hrest⟩ := h
  exact ⟨hregs, nofun, hrest⟩

/-- What a transfer of V0..Vx does after its own writes: I past the block and the advance (R116, R117). -/
theorem setI_pastBlock_advance_spec {w : MayWrite} {s t : State} (x : RegIx) (hpc : t.pc = s.pc)
    (hframe : Frame w s t) :
    (t.setI (s.pastBlock x)).advance.i.toNat = (s.i.toNat + x.toNat + 1) % 65536 ∧
      Advanced s (t.setI (s.pastBlock x)).advance ∧
      Frame { w with index := true } s (t.setI (s.pastBlock x)).advance :=
  ⟨s.pastBlock_toNat x, ⟨congrArg (· + 2) hpc, rfl⟩, (hframe.setI _).finish _⟩

/-! ## LD B -/

/-- The digits of a byte by plain arithmetic (46_memory_transfer.md R115). -/
theorem digits_map_toNat (a : Byte) :
    (digits a).map BitVec.toNat = [a.toNat / 100, a.toNat / 10 % 10, a.toNat % 10] := by
  simp [digits]

/-- Settles O44: a store of the three digits at I, or its check. -/
theorem bcdStoresTheDecimalDigits : Obligations.BcdStoresTheDecimalDigits := by
  intro x s
  refine ⟨fun hlow hhigh => ?_, fun hlast => exec_eq_fault.2 (State.checkWrite_above (by decide) hlast),
    fun hglyph => exec_eq_fault.2 (State.checkWrite_glyph (by decide) (by decide) hglyph)⟩
  have hcheck : s.checkWrite s.addrI 3 = none :=
    (State.checkWrite_none (by decide) (by decide)).2 ⟨hlow, Nat.lt_succ_of_le hhigh⟩
  have hdigit (j : Nat) (hj : j < 3) : ((s.writeBytes s.addrI (digits (s.getV x))).readMem (s.i.toNat + j)).toNat =
      [(s.getV x).toNat / 100, (s.getV x).toNat / 10 % 10, (s.getV x).toNat % 10][j] := by
    simp only [← digits_map_toNat, List.getElem_map]
    exact congrArg _ (s.readMem_writeBytes_inside s.addrI (digits (s.getV x)) hj)
  exact ⟨_, guarded_eq_next.2 ⟨hcheck, rfl⟩, hdigit 0 (by decide), hdigit 1 (by decide), hdigit 2 (by decide),
    ⟨congrArg (· + 2) (s.writeBytes_pc _ _), rfl⟩, (s.writeBytes_frame s.addrI (digits (s.getV x))).finish _⟩

/-! ## LD [I], Vx -/

/-- Settles O45: a store of V0..Vx at I, or its check. -/
theorem storeRegistersWritesTheBlock : Obligations.StoreRegistersWritesTheBlock := by
  intro x s
  refine ⟨fun hlow hhigh => ?_, fun hlast => exec_eq_fault.2 (State.checkWrite_above x.isLt hlast),
    fun hglyph => exec_eq_fault.2 (State.checkWrite_glyph (Nat.succ_pos _) x.isLt hglyph)⟩
  have hcheck : s.checkWrite s.addrI (blockSize x) = none :=
    (State.checkWrite_none (Nat.succ_pos _) x.isLt).2 ⟨hlow, Nat.lt_succ_of_le hhigh⟩
  have hexec : exec (.storeRegs x) s = .next _ := guarded_eq_next.2 ⟨hcheck, rfl⟩
  have hframe := s.writeBytes_frame s.addrI (s.regBlock x)
  rw [State.regBlock_length] at hframe
  exact ⟨_, hexec, fun r hr => (exec_storeRegs_readMem hexec hr).2,
    setI_pastBlock_advance_spec x (s.writeBytes_pc _ _) hframe⟩

/-! ## LD Vx, [I] -/

/-- A load of V0..Vx writes those registers. -/
theorem State.loadBlock_frame (s : State) (x : RegIx) (base : Nat) :
    Frame { regs := writtenRegs (.loadRegs x) } s (s.loadBlock x base) :=
  frame_withV s fun r hr => (s.getV_loadBlock x base r).trans (if_neg (mt mem_writtenRegs_loadRegs.2 hr))

/-- Settles O46: a load of V0..Vx from I, or its check. -/
theorem loadRegistersReadsTheBlock : Obligations.LoadRegistersReadsTheBlock := by
  intro x s
  refine ⟨fun hhigh => ?_, fun hlast => exec_eq_fault.2 (State.checkRead_above hlast)⟩
  have hcheck : s.checkRead s.addrI (blockSize x) = none := State.checkRead_none.2 (.inr (Nat.lt_succ_of_le hhigh))
  have hexec : exec (.loadRegs x) s = .next ((s.loadBlock x s.addrI).setI (s.pastBlock x)).advance :=
    guarded_eq_next.2 ⟨hcheck, rfl⟩
  have hregs (r : RegIx) : ((s.loadBlock x s.addrI).setI (s.pastBlock x)).advance.getV r =
      if r ≤ x then s.readMem (s.addrI + r.toNat) else s.getV r := s.getV_loadBlock x s.addrI r
  exact ⟨_, hexec, fun r hr => (hregs r).trans (if_pos hr), fun r hr => (hregs r).trans (if_neg (Nat.not_le.2 hr)),
    setI_pastBlock_advance_spec x (s.loadBlock_pc x s.addrI) (s.loadBlock_frame x s.addrI)⟩

/-- Settles O47: the load reads back, address by address, what the store put there. -/
theorem loadAfterStoreGivesRegistersBack : Obligations.LoadAfterStoreGivesRegistersBack := by
  intro x s t u hstore hmem hi
  have hfits : u.i.toNat + x.toNat ≤ 0xFFF := hi ▸ (exec_storeRegs_readMem hstore le_rfl).1
  obtain ⟨r, hload, hregs, -⟩ := (loadRegistersReadsTheBlock x u).1 hfits
  refine ⟨r, hload, fun j hj => ?_⟩
  calc r.getV j = u.readMem (u.i.toNat + j.toNat) := hregs j hj
    _ = t.readMem (s.i.toNat + j.toNat) := by rw [State.readMem_congr hmem, hi]
    _ = s.getV j := (exec_storeRegs_readMem hstore hj).2

end Sys2Proof.Machine
end

section
/-!
SUPPORT. The obligations on the faults of a step (spec/60_exceptions.md): what each check raises, which row of R119 an
instruction's check is, what a step's faults depend on, and the codes.
-/
namespace Sys2Proof.Machine

/-! ## What each check raises (R119, R120) -/

/-- What a check of one condition raises. -/
theorem ite_some_fault_eq_some {p : Prop} [Decidable p] {f g : Fault} :
    (if p then some g else none) = some f ↔ p ∧ f = g := by
  rw [Option.ite_none_right_eq_some, Option.some_inj, @eq_comm _ g]

theorem State.pushFault_eq_some {s : State} {f : Fault} :
    s.pushFault = some f ↔ s.sp = 15 ∧ f = .stackOverflow s.pc s.sp :=
  ite_some_fault_eq_some

theorem State.popFault_eq_some {s : State} {f : Fault} :
    s.popFault = some f ↔ s.sp = 0 ∧ f = .stackUnderflow s.pc s.sp :=
  ite_some_fault_eq_some

theorem State.keyFault_eq_some {s : State} {a : Byte} {f : Fault} :
    s.keyFault a = some f ↔ 15 < a.toNat ∧ f = .keyIndexOutOfRange s.pc a := by
  rw [State.keyFault_eq, ite_some_fault_eq_some]

theorem State.checkRead_eq_some {s : State} {base count : Nat} {f : Fault} :
    s.checkRead base count = some f ↔
      0 < count ∧ 0xFFF < base + count - 1 ∧ f = .memoryOutOfRange s.pc (max base 0x1000) .read := by
  rw [State.checkRead_eq, ite_some_fault_eq_some, and_assoc]

/-- A block of 1 to 16 bytes is too short to start in the glyph region and end above memory, so the two faults of a
write exclude each other (20_memory.md R48). -/
theorem State.checkWrite_eq_some {s : State} {base n : Nat} {f : Fault} (hsmall : n < 16) :
    s.checkWrite base (n + 1) = some f ↔
      (0xFFF < base + n ∧ f = .memoryOutOfRange s.pc (max base 0x1000) .write) ∨
      (base < 0x50 ∧ f = .glyphRegionWrite s.pc base) := by
  by_cases hlast : 0xFFF < base + n
  · have hhigh : ¬ base < 0x50 := by omega
    simp [State.checkWrite_above hsmall hlast, hlast, hhigh, eq_comm]
  · by_cases hglyph : base < 0x50
    · simp [State.checkWrite_glyph n.succ_pos hsmall hglyph, hlast, hglyph, eq_comm]
    · have hpass : s.checkWrite base (n + 1) = none :=
        (State.checkWrite_none n.succ_pos hsmall).2 (by omega)
      simp [hpass, hlast, hglyph]

/-! ## The rows of instructions (R119) -/

/-- Settles O54: an instruction faults with its check's fault, and each check has one row of R119, a store's two. -/
theorem instructionFaultTable : Obligations.InstructionFaultTable := by
  refine fun i s => ⟨exec_ne_refused i s, fun f => exec_eq_fault.trans ?_⟩
  cases i with
  | call => exact State.pushFault_eq_some.trans (by simp)
  | ret => exact State.popFault_eq_some.trans (by simp)
  | drw => exact State.checkRead_eq_some.trans (by simp [State.addrI])
  | loadRegs => exact State.checkRead_eq_some.trans (by simp [State.addrI, blockSize])
  | ldB => exact (State.checkWrite_eq_some (by decide)).trans (by simp [State.addrI])
  | storeRegs x => exact (State.checkWrite_eq_some x.isLt).trans (by simp [State.addrI])
  | skp | sknp => exact State.keyFault_eq_some.trans (by simp)
  | _ => exact iff_of_false nofun (by simp)

/-! ## What a step's faults depend on -/

/-- The three ways a step faults, in the order of R123: at the fetch, at the decoder, at the instruction's check. -/
theorem coreStep_eq_fault {s : State} {f : Fault} :
    coreStep s = .fault f ↔
      (pcOk s.pc = false ∧ f = .invalidPc s.pc) ∨
      (pcOk s.pc = true ∧ (∃ e, decodeWord s.fetchWord = .error e) ∧ f = .unknownOpcode s.fetchWord s.pc) ∨
      (pcOk s.pc = true ∧ ∃ i, decodeWord s.fetchWord = .ok i ∧ checkOf i s = some f) := by
  rcases coreStep_cases s with ⟨hpc, h⟩ | ⟨hpc, ⟨e, hdecode⟩, h⟩ | ⟨hpc, i, hdecode, h⟩ <;> rw [h]
  · simp [hpc, eq_comm]
  · simp [hpc, hdecode, eq_comm]
  · simp [hpc, hdecode, exec_eq_fault]

/-- No check reads the timers or the key states: the check of a skip on a key reads the key's index only. -/
theorem checkOf_withTimersAndKeys (i : Instr) (s : State) (dt st : Byte) (keys : Vector Bool 16) :
    checkOf i { s with dt := dt, st := st, keys := keys } = checkOf i s := by
  cases i with
  | skp x | sknp x => exact (State.keyFault_eq _ _).trans (s.keyFault_eq (s.getV x)).symm
  | _ => rfl

/-- A fault of a step does not depend on the timers or the key states (R126). -/
theorem coreStep_fault_withTimersAndKeys {s : State} {f : Fault} (h : coreStep s = .fault f) (dt st : Byte)
    (keys : Vector Bool 16) : coreStep { s with dt := dt, st := st, keys := keys } = .fault f := by
  rw [coreStep_eq_fault] at h ⊢
  simp only [checkOf_withTimersAndKeys]
  exact h

/-- Settles O55: tick writes the timers and set_key the keys, and neither matters to a fault. -/
theorem keysAndTicksNeverClearAFault : Obligations.KeysAndTicksNeverClearAFault := by
  refine fun s f h => ⟨coreStep_fault_withTimersAndKeys h _ _ s.keys, fun k pressed => ?_⟩
  show coreStep (s.setKey k pressed) = _
  rw [State.setKey_eq]
  exact coreStep_fault_withTimersAndKeys h s.dt s.st _

/-! ## Codes -/

/-- The code 0 is that of a completed step alone. -/
theorem resultCode_eq_zero {r : Result} : resultCode r = some 0 ↔ ∃ t, r = .next t := by
  cases r with
  | next t => simp
  | fault f => simp [Fault.code_ne_zero]
  | refused e => simp

/-- A result that is no refusal has a code. -/
theorem resultCode_ne_none {r : Result} (h : ∀ e, r ≠ .refused e) : resultCode r ≠ none := by
  cases r with
  | next t => simp
  | fault f => simp
  | refused e => exact absurd rfl (h e)

/-- Settles O12: the codes by evaluation; a step's code is 0 only for a next state, and no step is refused. -/
theorem faultAndHostCodes : Obligations.FaultAndHostCodes :=
  ⟨fun _ _ => rfl, fun _ _ => rfl, fun _ _ => rfl, fun _ _ _ => rfl, fun _ => rfl, fun _ _ => rfl, fun _ _ => rfl,
    rfl, rfl, rfl, rfl, fun _ => rfl, fun _ => rfl, fun _ => rfl, resultCode_fault,
    fun s => ⟨resultCode_eq_zero, resultCode_ne_none (step_ne_refused s)⟩, fun _ => ⟨rfl, rfl⟩⟩

end Sys2Proof.Machine
end

section
/-!
SUPPORT. The obligations on reset and on what happens around a step (spec/70_reset_and_hazards.md): the fetch of zero
memory, the host's reset, and the delivery of the environment's input. No transaction reads or writes the inputs still
to come, so it does not matter whether an input is taken before its transactions land or after.
-/
namespace Sys2Proof.Machine

/-! ## Zero memory -/

/-- Two zero bytes are the word 0x0000, which is unknown (30_encoding.md R71). -/
theorem State.fetchWord_of_zero {s : State} (hhi : s.readMem s.pc.toNat = 0) (hlo : s.readMem (s.pc.toNat + 1) = 0) :
    s.fetchWord = 0 := by
  rw [State.fetchWord, hhi, hlo]; rfl

/-- A step whose fetch reads two zero bytes (70_reset_and_hazards.md R139). -/
theorem step_of_zeroMemory {s : State} (hpc : pcOk s.deliver.pc = true)
    (hhi : s.deliver.readMem s.deliver.pc.toNat = 0) (hlo : s.deliver.readMem (s.deliver.pc.toNat + 1) = 0) :
    step s = .fault (.unknownOpcode 0x0000 s.deliver.pc) := by
  have hword : s.deliver.fetchWord = 0 := State.fetchWord_of_zero hhi hlo
  have hstep := (stepRaisesUnknownOpcode s hpc).2 (by rw [hword]; decide)
  rwa [hword] at hstep

/-- Settles O4: reset is such a state, since nothing is stored at 0x200. -/
theorem zeroMemoryFetchRaisesUnknownOpcode : Obligations.ZeroMemoryFetchRaisesUnknownOpcode := by
  refine ⟨?_, fun s => step_of_zeroMemory⟩
  have hblank {a : Nat} (ha : 80 ≤ a) : State.reset.deliver.readMem a = 0 := blankByte_high ha
  exact step_of_zeroMemory (s := State.reset) (by decide) (hblank (by decide)) (hblank (by decide))

/-! ## Reset by the host -/

/-- Settles O5: the host's reset takes from s only the model's own fields. -/
theorem hostResetRestoresResetState : Obligations.HostResetRestoresResetState := fun _ => rfl

/-! ## Transactions and the inputs to come -/

theorem State.writeBytes_withInputs (s : State) (inputs : List StepInput) (base : Nat) (l : List Byte) :
    State.writeBytes { s with inputs := inputs } base l = { s.writeBytes base l with inputs := inputs } := by
  induction l generalizing s base with
  | nil => rfl
  | cons b l ih => exact ih (s.writeMem base b) (base + 1)

/-- A transaction neither reads nor writes the inputs to come. -/
theorem HostOp.apply_withInputs (s : State) (inputs : List StepInput) (op : HostOp) :
    HostOp.apply { s with inputs := inputs } op = { HostOp.apply s op with inputs := inputs } := by
  cases op with
  | reset | tick | isKeyPressed | render => rfl
  | setKey k pressed =>
    show State.setKey _ k pressed = { s.setKey k pressed with inputs := inputs }
    unfold State.setKey
    split <;> rfl
  | load rom =>
    cases rom with
    | none => rfl
    | some bytes =>
      by_cases hlen : bytes.length ≤ 3584
      · simp only [HostOp.apply_load_of_short _ hlen, State.writeBytes_withInputs]
      · simp only [HostOp.apply_load_of_long _ (not_le.1 hlen)]

/-- A transaction leaves the counter of the free random values as it is. -/
theorem HostOp.apply_freeIx (s : State) (op : HostOp) : (HostOp.apply s op).freeIx = s.freeIx := by
  cases op with
  | reset | tick | isKeyPressed | render => rfl
  | setKey k pressed =>
    show (s.setKey k pressed).freeIx = s.freeIx
    rw [State.setKey_eq]
  | load rom =>
    show (s.hostLoad rom).freeIx = s.freeIx
    rcases s.hostLoad_cases rom with ⟨heq, -⟩ | ⟨bytes, -, -, -, heq⟩ <;> rw [heq]
    exact s.writeBytes_freeIx 512 bytes

theorem applyOps_inputs (s : State) (ops : List HostOp) : (applyOps s ops).inputs = s.inputs :=
  applyOps_induction (p := fun t => t.inputs = s.inputs)
    (fun t op ht => (congrArg State.inputs (HostOp.apply_withInputs t t.inputs op)).trans ht) ops rfl

theorem applyOps_freeIx (s : State) (ops : List HostOp) : (applyOps s ops).freeIx = s.freeIx :=
  applyOps_induction (p := fun t => t.freeIx = s.freeIx) (fun t op ht => (HostOp.apply_freeIx t op).trans ht) ops rfl

/-! ## Delivery -/

/-- Delivering an input is applying its first transaction and delivering what is left of it. -/
theorem State.deliver_cons_cons {s : State} {inp : StepInput} {rest : List StepInput} {op : HostOp} {ops : List HostOp}
    (hin : s.inputs = inp :: rest) (hops : inp.ops = op :: ops) :
    s.deliver =
      State.deliver { HostOp.apply s op with inputs := { ops := ops, rnd := inp.rnd } :: rest } := by
  have happly : HostOp.apply { s with inputs := rest } op = _ := HostOp.apply_withInputs s rest op
  calc s.deliver = { applyOps { s with inputs := rest } (op :: ops) with rnd := inp.rnd } := by
        rw [State.deliver_cons hin, hops]
    _ = { applyOps { HostOp.apply s op with inputs := rest } ops with rnd := inp.rnd } :=
        congrArg (fun t => { applyOps t ops with rnd := inp.rnd }) happly

/-- Settles O11: an input's fields and transactions, an input with no transaction, and no input left. -/
theorem environmentInputIsDelivered : Obligations.EnvironmentInputIsDelivered := by
  refine fun s => ⟨fun inp rest hin => ?_, fun inp rest hin hops => ?_, fun hin => ?_⟩
  · refine ⟨?_, ?_, ?_, fun op ops hops => State.deliver_cons_cons hin hops⟩ <;> rw [State.deliver_cons hin]
    · exact applyOps_inputs _ inp.ops
    · exact applyOps_freeIx _ inp.ops
  · rw [State.deliver_cons hin, hops]
    exact ⟨Frame.refl _ _, rfl, rfl⟩
  · rw [State.deliver_nil hin]
    exact ⟨Frame.refl _ _, rfl, rfl⟩

end Sys2Proof.Machine
end
